-- ==== Sys2Proof/Word.lean ====
section
/-! DEFINITION. The two word types of the engine's interface: the data byte and the stimulus word. -/

namespace Sys2Proof

/-- An unsigned 8-bit datum: a pixel, a weight or an output sample (00_scope.md R7); bit 7 is the
most significant (R13, log 17). -/
abbrev Byte := BitVec 8

/-- The 11-bit packing of the four non-clock inputs during one cycle (30_encoding.md R40). -/
abbrev StimWord := BitVec 11

end Sys2Proof
end

