-- ==== Sys2Proof/Config.lean ====
section
/-! DEFINITION. The parameters of the instance (00_scope.md R7, R8) and the free values: what the spec leaves
open and no proof may lean on (00_scope.md R6, R10, R14). -/

namespace Sys2Proof.Config

/-- Image width (R7; log 19). -/
abbrev W : Nat := 16
/-- Image height (R7; log 19). -/
abbrev H : Nat := 16
/-- Kernel width and height (R7). -/
abbrev K : Nat := 3
/-- Line-buffer capacity, `2·W + K` (R8). -/
abbrev C : Nat := 2 * W + K
/-- Number of weights, `K·K` (R8). -/
abbrev NW : Nat := K * K
/-- Pixels of one frame, `H·W` (R8). -/
abbrev NPIX : Nat := H * W
/-- Output width, `W − K + 1` (R8). -/
abbrev OW : Nat := W - K + 1
/-- Output height, `H − K + 1` (R8). -/
abbrev OH : Nat := H - K + 1
/-- Results of one frame, `OH·OW` (R8). -/
abbrev NOUT : Nat := OH * OW

/-- The sample emitted for an exact sum above 255: the open half of the parameter `narrow8` (R10, U1,
decision D5). Free; below 256 the sum itself is emitted (`Machine.narrow8`). Log 1. -/
opaque narrowOver : Nat → Byte

/-- `UNSPEC8`: the k-th unspecified byte drawn (R14, decision D12). Free. Log 2. -/
opaque unspec8 : Nat → Byte

/-- The weight registers of an UNDEF state, by draw (10_state.md R16). Free. Log 4. -/
opaque undefWeights : Nat → Vector Byte NW
/-- The load count of an UNDEF state, by draw (R16). Free. Log 4. -/
opaque undefWcnt : Nat → Fin (NW + 1)
/-- The pixel count of an UNDEF state, by draw (R16). Free. Log 4. -/
opaque undefN : Nat → Fin (NPIX + 1)
/-- The cursor of an UNDEF state, by draw (R16). Free. Log 4. -/
opaque undefWptr : Nat → Fin C
/-- The `output_valid` pin of an UNDEF state, by draw (R16). Free. Log 4. -/
opaque undefValid : Nat → Bool
/-- The line-buffer slots of an UNDEF state, by draw (R16). Free. Log 4. -/
opaque undefSlot : Nat → Fin C → Byte

end Sys2Proof.Config
end

