-- ==== Sys2Proof/Syntax.lean ====
section
/-! DEFINITION. The operations: one constructor per row of spec/opcode_table.json. -/

namespace Sys2Proof

/-- What the engine does in one cycle (30_encoding.md R42). The only operand is the data byte on
`pixel_in`, unsigned (R41); the destinations are implied by the state. -/
inductive Instr where
  /-- Synchronous reset (40_reset_idle.md R50). -/
  | rst
  /-- Load one weight (41_weight_load.md R54). -/
  | ldw (d : Byte)
  /-- Accept one pixel and convolve (42_stream_convolve.md R58). -/
  | pix (d : Byte)
  /-- Idle cycle (40_reset_idle.md R52). -/
  | nop
  deriving DecidableEq, Repr

end Sys2Proof
end

