-- ==== Sys2Proof/WellFormed.lean ====
section
/-! DEFINITION. Well-formedness: of an operation, and of the numbers from which operations and stimulus words are
written down. -/

namespace Sys2Proof

/-- A number is an operand when it is in `0..255` (30_encoding.md R41, R45). -/
def operandInRange (k : Nat) : Bool := decide (k < 2 ^ 8)

/-- A number is a stimulus word when it has 11 bits (R40: there are no other lengths). -/
def stimWordInRange (k : Nat) : Bool := decide (k < 2 ^ 11)

/-- Every operation is well formed: its operand is a byte by its type, every byte is an ordinary operand
(R41, 41_weight_load.md R57 (e)), and legality depends on the state alone (R44). -/
def Instr.wellFormed : Instr → Bool
  | .rst => true
  | .ldw d => operandInRange d.toNat
  | .pix d => operandInRange d.toNat
  | .nop => true

end Sys2Proof
end

