-- ==== Sys2Proof/Decode.lean ====
section
/-! DEFINITION. From the input pins to the operation and back (30_encoding.md): the packing of the pins into a
stimulus word, the selection of the operation, the canonical word of an operation, and the opcode table. -/

namespace Sys2Proof

/-- The operand byte of a number in range, nothing for a number out of range. -/
def operandOfNat? (k : Nat) : Option Byte := if operandInRange k then some (BitVec.ofNat 8 k) else none

/-- The stimulus word of a number in range, nothing for a number out of range. -/
def stimWordOfNat? (k : Nat) : Option StimWord :=
  if stimWordInRange k then some (BitVec.ofNat 11 k) else none

/-- The four non-clock inputs during a cycle (10_state.md R15). The clock is not among them: one stimulus is one
full clock cycle (R40). -/
structure Inputs where
  /-- The `reset` pin. -/
  reset : Bool
  /-- The `set_weights_mode` pin. -/
  setWeightsMode : Bool
  /-- The `input_valid` pin. -/
  inputValid : Bool
  /-- The `pixel_in` pins. -/
  pixelIn : Byte
  deriving DecidableEq, Repr

/-- `word = {rst, swm, iv, d[7:0]}` (R40). -/
def Inputs.toWord (p : Inputs) : StimWord :=
  BitVec.ofBool p.reset ++ BitVec.ofBool p.setWeightsMode ++ BitVec.ofBool p.inputValid ++ p.pixelIn

/-- The fields of a stimulus word: bits `[10]`, `[9]`, `[8]` and `[7:0]` (R40). -/
def Inputs.ofWord (x : StimWord) : Inputs where
  reset := x.getLsbD 10
  setWeightsMode := x.getLsbD 9
  inputValid := x.getLsbD 8
  pixelIn := x.extractLsb' 0 8

/-- The operation the control inputs select: `reset` first, then `set_weights_mode`, then `input_valid`
(R42, 60_exceptions.md R79; the middle priority is decision D3, log 10). -/
def Inputs.operation (p : Inputs) : Instr :=
  if p.reset then .rst
  else if p.setWeightsMode then .ldw p.pixelIn
  else if p.inputValid then .pix p.pixelIn
  else .nop

/-- The operation a stimulus word names; total, since no word is illegal in itself (R42, R44). -/
def decode (x : StimWord) : Instr := (Inputs.ofWord x).operation

/-- Why a number is no stimulus word. -/
inductive DecodeError where
  /-- It has more than 11 bits; raised by `decodeNat`; safe (R40: there are no other lengths). -/
  | notAStimulusWord
  deriving DecidableEq, Repr

/-- Decoding from a number of any size. -/
def decodeNat (w : Nat) : Except DecodeError Instr :=
  match stimWordOfNat? w with
  | some x => .ok (decode x)
  | none => .error .notAStimulusWord

/-- The host's question about one table row: the operation read from the bits `w`. A stimulus word has 11 bits
whatever the row's length in whole bytes. -/
def decodeTableWord (_nbits w : Nat) : Option Instr :=
  match decodeNat w with
  | .ok i => some i
  | .error _ => none

/-- The canonical word of an operation, its ignored fields 0 (R43). -/
def encode : Instr → StimWord
  | .rst => 0x400
  | .ldw d => 0x200 + d.setWidth 11
  | .pix d => 0x100 + d.setWidth 11
  | .nop => 0x000

/-- One row of the opcode table: a word `x` is the row's when `x AND mask = pattern` (R42). -/
structure OpcodeRow where
  mnemonic : String
  mask : StimWord
  pattern : StimWord
  deriving DecidableEq, Repr

/-- The row of an operation (R42, spec/opcode_table.json). -/
def Instr.row : Instr → OpcodeRow
  | .rst => ⟨"RST", 0x400, 0x400⟩
  | .ldw _ => ⟨"LDW", 0x600, 0x200⟩
  | .pix _ => ⟨"PIX", 0x700, 0x100⟩
  | .nop => ⟨"NOP", 0x700, 0x000⟩

/-- The four rows in the order of the table (R42). -/
def opcodeRows : List OpcodeRow :=
  [Instr.rst.row, (Instr.ldw 0).row, (Instr.pix 0).row, Instr.nop.row]

/-- A row selects a word. -/
def OpcodeRow.selects (r : OpcodeRow) (x : StimWord) : Bool := x &&& r.mask == r.pattern

end Sys2Proof
end

