-- ==== Sys2Proof/Machine/State.lean ====
section
/-! DEFINITION. The state of the machine (10_state.md), its outcomes' reasons, and the state after reset. -/

namespace Sys2Proof.Machine

/-- A line-buffer slot index, `0..C−1` (20_memory.md R30). -/
abbrev Slot := Fin Config.C
/-- A weight index, `0..8` (R30). -/
abbrev WeightIndex := Fin Config.NW
/-- The range of `wcnt`, `0..9` (10_state.md R18; log 16). -/
abbrev WeightCount := Fin (Config.NW + 1)
/-- The range of `n`, `0..NPIX` (R19; log 16). -/
abbrev PixelCount := Fin (Config.NPIX + 1)
/-- The nine weight registers (R17). -/
abbrev Weights := Vector Byte Config.NW

/-- The contents of the line buffer as a sparse list of (slot, byte) pairs: slots strictly rising, no entry equal
to the reset contents, which is what an unlisted slot reads as (log 24). The form is `Memory.wf` in
Machine/Ops.lean. -/
abbrev Memory := List Host.Cell

/-- Everything the spec gives the engine (10_state.md R16 to R23), and three fields of the model's own
(`draws`, `stimulus`, `cycle`). -/
structure State where
  /-- 1 while no engine field has a specified value (R16; log 4). -/
  undef : Bool
  /-- The weight registers: `w[3·r + c]` is `weight[r][c]` (R17). -/
  w : Weights
  /-- How many weights have been loaded since the last reset (R18). -/
  wcnt : WeightCount
  /-- How many pixels have been accepted since the last reset (R19). -/
  n : PixelCount
  /-- The line-buffer write cursor (R20). -/
  wptr : Slot
  /-- The `output_valid` pin (R21). -/
  outputValid : Bool
  /-- The `pixel_out` pins; meaningful only while `output_valid = 1` (R22). -/
  pixelOut : Byte
  /-- The line buffer (R23). -/
  lb : Memory
  /-- The model's own: how many unspecified values have been drawn (00_scope.md R14; log 3). -/
  draws : Nat
  /-- The harness's: the stimulus words still to be presented, the next one first (R12, R96; log 7). -/
  stimulus : List StimWord
  /-- The harness's: the index of the cycle about to run (60_exceptions.md R78; log 7). -/
  cycle : Nat
  deriving DecidableEq, Repr

/-- A protocol violation (60_exceptions.md R72): an `LDW` or a `PIX` in a state that does not allow it. Each
carries the index of the offending cycle and the stimulus word, where one was presented (R78; log 9). All are
safe: the spec chooses to stop where the hardware's response is unknown (decision D8, log 8). -/
inductive Fault where
  /-- Code 1, raised by `LDW` and `PIX` in UNDEF (R73). Safe. -/
  | notReset (cycle : Nat) (word : Option StimWord)
  /-- Code 2, raised by `PIX` before nine weights are loaded (R74). Safe. -/
  | streamBeforeWeights (cycle : Nat) (word : Option StimWord)
  /-- Code 3, raised by a tenth `LDW` before any pixel (R75). Safe. -/
  | weightOverrun (cycle : Nat) (word : Option StimWord)
  /-- Code 4, raised by `LDW` once a pixel has been accepted (R76). Safe. -/
  | weightWriteInStream (cycle : Nat) (word : Option StimWord)
  /-- Code 5, raised by `PIX` after the last pixel of the frame (R77). Safe. -/
  | frameOverrun (cycle : Nat) (word : Option StimWord)
  deriving DecidableEq, Repr

/-- Why there is no next state although the engine did not fault. -/
inductive Refusal where
  /-- An operation without a meaning; raised by no arm of `exec` (every operation has one). Safe. -/
  | notModelled (mnemonic : String)
  /-- The list of stimulus words is exhausted: the run has ended and there is no further cycle
  (70_reset_and_hazards.md R96). Raised by `step`. Safe. -/
  | endOfRun
  deriving DecidableEq, Repr

/-- What a cycle can answer. -/
abbrev Result := Host.Outcome State Fault Refusal

/-- The state right after reset (10_state.md R28), no stimulus presented yet (log 5, log 7). `pixel_out` is a
free value (log 2) and the counter of drawn values stands behind it (log 3). -/
def State.reset : State where
  undef := false
  w := Vector.replicate Config.NW 0
  wcnt := 0
  n := 0
  wptr := 0
  outputValid := false
  pixelOut := Config.unspec8 0
  lb := []
  draws := 1
  stimulus := []
  cycle := 0

end Sys2Proof.Machine
end

