-- ==== Sys2Proof/Machine/Operands.lean ====
section
/-! DEFINITION. The operands an operation implies: the position of the pixel, the cursor, the weight index and
the nine window slots. -/

namespace Sys2Proof.Machine

/-- The image row of the pixel of linear index `p` (42_stream_convolve.md R59; log 20). -/
def row (p : Nat) : Nat := p / Config.W

/-- The image column of the pixel of linear index `p` (R59; log 20). -/
def col (p : Nat) : Nat := p % Config.W

/-- The next value of a bounded counter; it stops at its bound (10_state.md R18, R19: the counters never wrap). -/
def countUp {k : Nat} (x : Fin (k + 1)) : Fin (k + 1) := ⟨min (x.val + 1) k, by omega⟩

/-- The cursor after one accepted pixel, `(a + 1) mod C` (R20, 20_memory.md R31). -/
def Slot.next (a : Slot) : Slot := ⟨(a.val + 1) % Config.C, Nat.mod_lt _ (by decide)⟩

/-- The slot `k` places before `a`, `(a − k) mod C` with the representative in `0..C−1` (00_scope.md R13). -/
def Slot.back (a : Slot) (k : Nat) : Slot :=
  ⟨(a.val + (Config.C - k % Config.C)) % Config.C, Nat.mod_lt _ (by decide)⟩

/-- The slot of window element `(i, j)` when the slot just written is `a`:
`(a − (2 − i)·W − (2 − j)) mod C` (20_memory.md R32). -/
def windowSlot (a : Slot) (i j : Fin Config.K) : Slot :=
  a.back ((2 - i.val) * Config.W + (2 - j.val))

/-- The flat index of `weight[r][c]`, `3·r + c` (10_state.md R17). -/
def weightIndex (r c : Fin Config.K) : WeightIndex := ⟨3 * r.val + c.val, by
  have hr : r.val < 3 := r.isLt
  have hc : c.val < 3 := c.isLt
  show 3 * r.val + c.val < 9
  omega⟩

end Sys2Proof.Machine
end

