-- ==== Sys2Proof/Machine/Flags.lean ====
section
/-! DEFINITION. The one flag, `output_valid`: when the pixel of a linear index completes a window. -/

namespace Sys2Proof.Machine

/-- The pixel of linear index `p` completes a window: `r ≥ K − 1` and `c ≥ K − 1`, that is `r ≥ 2 ∧ c ≥ 2`
(43_output_controller.md R65; conflicts C1 and C7 as resolved). -/
def completesWindow (p : Nat) : Bool := decide (2 ≤ row p) && decide (2 ≤ col p)

end Sys2Proof.Machine
end

