-- ==== Sys2Proof/Machine/Ops.lean ====
section
/-! DEFINITION. The named operations over the line buffer, the weights, the outputs and the sequencing state, and
the raising of a protocol violation. -/

namespace Sys2Proof.Machine

/-! ### The line buffer (20_memory.md) -/

/-- What a slot that is not listed reads as: the reset contents (10_state.md R28, decision D11; log 6). -/
def Memory.unlisted : Byte := 0

/-- The byte at an address. -/
def Memory.readAt : Memory → Nat → Byte
  | [], _ => Memory.unlisted
  | (b, x) :: m, a => if b = a then x else Memory.readAt m a

/-- An entry unless the byte is what an unlisted slot reads as. -/
def Memory.entry (a : Nat) (v : Byte) (m : Memory) : Memory :=
  if v = Memory.unlisted then m else (a, v) :: m

/-- The line buffer with the byte at one address replaced, in the same form. -/
def Memory.writeAt : Memory → Nat → Byte → Memory
  | [], a, v => Memory.entry a v []
  | (b, x) :: m, a, v =>
    if a < b then Memory.entry a v ((b, x) :: m)
    else if a = b then Memory.entry a v m
    else (b, x) :: Memory.writeAt m a v

/-- The form of a line buffer whose entries all stand at `lo` or above. -/
def Memory.wfFrom : Nat → Memory → Bool
  | _, [] => true
  | lo, (b, x) :: m =>
    decide (lo ≤ b) && decide (b < Config.C) && (x != Memory.unlisted) && Memory.wfFrom (b + 1) m

/-- The canonical form: slots strictly rising, all below `C`, no entry equal to what an unlisted slot reads as. -/
def Memory.wf (m : Memory) : Bool := Memory.wfFrom 0 m

/-- `lb[a]` (00_scope.md R14). A slot index out of range cannot be formed (20_memory.md R34). -/
def Memory.read (m : Memory) (a : Slot) : Byte := Memory.readAt m a.val

/-- `lb[a] <- v` (R14). -/
def Memory.write (m : Memory) (a : Slot) (v : Byte) : Memory := Memory.writeAt m a.val v

/-- The line buffer with the given byte in every slot. -/
@[irreducible] def Memory.ofSlots (f : Slot → Byte) : Memory :=
  (List.finRange Config.C).foldl (fun m a => Memory.write m a (f a)) []

/-! ### The weights (10_state.md R17) -/

/-- `w[i]` (00_scope.md R14). -/
def readWeight (w : Weights) (i : WeightIndex) : Byte := w[i.val]

/-- `w[k] <- d` for the load index `k`; nothing at `k = 9`, which no `LDW` reaches (41_weight_load.md R54). -/
def writeWeight (w : Weights) (k : WeightCount) (d : Byte) : Weights := w.setIfInBounds k.val d

/-! ### The state -/

/-- `output_valid <- 0`, `pixel_out <- UNSPEC8`: the outputs of a cycle that produces no result
(43_output_controller.md R66, 10_state.md R22; log 2). -/
def State.noResult (s : State) : State :=
  { s with outputValid := false, pixelOut := Config.unspec8 s.draws, draws := s.draws + 1 }

/-- `output_valid <- 1` with the sample of this cycle (R21, R22). -/
def State.emit (s : State) (sample : Byte) : State := { s with outputValid := true, pixelOut := sample }

/-- `w[wcnt] <- d`, `wcnt <- wcnt + 1` (41_weight_load.md R54). -/
def State.loadWeight (s : State) (d : Byte) : State :=
  { s with w := writeWeight s.w s.wcnt d, wcnt := countUp s.wcnt }

/-- `lb[wptr] <- d`, `n <- n + 1`, `wptr <- (wptr + 1) mod C` (20_memory.md R31, 42_stream_convolve.md R58). -/
def State.acceptPixel (s : State) (d : Byte) : State :=
  { s with lb := Memory.write s.lb s.wptr d, n := countUp s.n, wptr := Slot.next s.wptr }

/-- The reset state of 10_state.md R28 over the harness's fields, `pixel_out` a fresh unspecified value
(40_reset_idle.md R50). -/
def State.clear (s : State) : State :=
  { s with
    undef := false, w := Vector.replicate Config.NW 0, wcnt := 0, n := 0, wptr := 0, outputValid := false,
    pixelOut := Config.unspec8 s.draws, lb := [], draws := s.draws + 1 }

/-- UNDEF: no engine field has a specified value, so every one is a fresh free value and none of the old ones is
kept (10_state.md R16; log 4). -/
def State.enterUndef (s : State) : State :=
  { s with
    undef := true, w := Config.undefWeights s.draws, wcnt := Config.undefWcnt s.draws,
    n := Config.undefN s.draws, wptr := Config.undefWptr s.draws, outputValid := Config.undefValid s.draws,
    pixelOut := Config.unspec8 s.draws, lb := Memory.ofSlots (Config.undefSlot s.draws), draws := s.draws + 1 }

/-- The machine at power-on, before the first `RST` (10_state.md R16, 70_reset_and_hazards.md R86, R96; log 5). -/
def State.powerOn : State := State.enterUndef State.reset

/-! ### Sequencing (10_state.md R24) -/

/-- Where the engine stands in its protocol: UNDEF, or one of the three named conditions (R24; conflict C6). -/
inductive Phase where
  | undef
  | loading
  | streaming
  | frameDone
  deriving DecidableEq, Repr

/-- The phase of a state (R24). -/
def State.phase (s : State) : Phase :=
  if s.undef then .undef
  else if s.wcnt.val < Config.NW then .loading
  else if s.n.val < Config.NPIX then .streaming
  else .frameDone

/-! ### Protocol violations (60_exceptions.md) -/

/-- `raise PV(code)`: the fault outcome and no next state, so none of the operation's writes
(00_scope.md R14, 60_exceptions.md R72, R81), with the cycle and the word presented (R78). -/
def raise (why : Nat → Option StimWord → Fault) (s : State) : Result := .fault (why s.cycle s.stimulus.head?)

/-- The code of a violation (R73 to R77). -/
def Fault.code : Fault → Nat
  | .notReset _ _ => 1
  | .streamBeforeWeights _ _ => 2
  | .weightOverrun _ _ => 3
  | .weightWriteInStream _ _ => 4
  | .frameOverrun _ _ => 5

/-- The index of the offending cycle (R78). -/
def Fault.cycle : Fault → Nat
  | .notReset c _ => c
  | .streamBeforeWeights c _ => c
  | .weightOverrun c _ => c
  | .weightWriteInStream c _ => c
  | .frameOverrun c _ => c

/-- The offending stimulus word (R78). -/
def Fault.word : Fault → Option StimWord
  | .notReset _ x => x
  | .streamBeforeWeights _ x => x
  | .weightOverrun _ x => x
  | .weightWriteInStream _ x => x
  | .frameOverrun _ x => x

/-! ### The stimulus (70_reset_and_hazards.md R96) -/

/-- The stimulus word on the pins in this cycle: the first of those left (00_scope.md R5; log 7). -/
def State.fetch (s : State) : Option StimWord := s.stimulus.head?

/-- The harness goes on to the next word and the next cycle. -/
def State.endCycle (s : State) : State := { s with stimulus := s.stimulus.tail, cycle := s.cycle + 1 }

/-- A cycle that ends in a next state goes on to the next one; a fault or a refusal stays. -/
def finishCycle : Result → Result
  | .next t => .next t.endCycle
  | .fault f => .fault f
  | .refused r => .refused r

/-- The harness presents the word `x` in the coming cycle in place of the one it had there. -/
def State.present (s : State) (x : StimWord) : State := { s with stimulus := x :: s.stimulus.tail }

/-! ### What the harness sees -/

/-- The two output pins (10_state.md R15). -/
structure Outputs where
  outputValid : Bool
  pixelOut : Byte
  deriving DecidableEq, Repr

/-- The pins after a full cycle (70_reset_and_hazards.md R89); in UNDEF they have no specified value and nothing is read
(10_state.md R16; log 28). -/
def State.outputs (s : State) : Option Outputs := if s.undef then none else some ⟨s.outputValid, s.pixelOut⟩

/-- The sample the harness takes after a cycle: `pixel_out` where `output_valid = 1` in a defined state, nothing
elsewhere (43_output_controller.md R71; log 25). -/
def State.sample (s : State) : Option Byte := if !s.undef && s.outputValid then some s.pixelOut else none

/-- The internal state a simulator-level harness reads: the weights and the cursor (10_state.md R27); in UNDEF nothing is
read (R16; log 28). -/
def State.visible (s : State) : Option (Weights × Slot) := if s.undef then none else some (s.w, s.wptr)

end Sys2Proof.Machine
end

