-- ==== Sys2Proof/Machine/ResetIdle.lean ====
section
/-! DEFINITION. The two operations that carry no data (40_reset_idle.md). -/

namespace Sys2Proof.Machine

/-- `RST`: the reset state, from every state, with no violation ever (R50, R51). -/
def execRst (s : State) : Result := .next s.clear

/-- `NOP`: everything held and no result; in UNDEF the state stays UNDEF and nothing is raised
(R52, R53; decisions D15 and D9, log 13, log 4). -/
def execNop (s : State) : Result := if s.undef then .next s.enterUndef else .next s.noResult

end Sys2Proof.Machine
end

