-- ==== Sys2Proof/Machine/Datapath.lean ====
section
/-! DEFINITION. The 3x3 multiply-accumulate datapath and the narrowing of its sum (42_stream_convolve.md). -/

namespace Sys2Proof.Machine

/-- A sum over the three indices of one kernel dimension. -/
def sum3 (f : Fin Config.K → Nat) : Nat := f 0 + f 1 + f 2

/-- `win(i, j)`: the window element `i` rows from the top and `j` columns from the left, when the slot just written
is `a` (R60, 20_memory.md R32). -/
def window (lb : Memory) (a : Slot) (i j : Fin Config.K) : Byte := Memory.read lb (windowSlot a i j)

/-- `acc(a)`: the exact sum of the nine products, no kernel flip (R60, R63; decisions D6 and D7, log 11, log 12). -/
def acc (lb : Memory) (w : Weights) (a : Slot) : Nat :=
  sum3 fun i => sum3 fun j => (window lb a i j).toNat * (readWeight w (weightIndex i j)).toNat

/-- `narrow8`: the identity on `0..255`, free above (00_scope.md R10; log 1). -/
def narrow8 (sum : Nat) : Byte := if sum ≤ 255 then BitVec.ofNat 8 sum else Config.narrowOver sum

/-- The named instance `WRAP` of the open parameter (R10). -/
def wrapPolicy (sum : Nat) : Byte := BitVec.ofNat 8 (sum % 256)

/-- The named instance `SAT` of the open parameter (R10). -/
def satPolicy (sum : Nat) : Byte := BitVec.ofNat 8 (min sum 255)

end Sys2Proof.Machine
end

