-- ==== Sys2Proof/Machine/StreamConvolve.lean ====
section
/-! DEFINITION. Pixel acceptance and convolution (42_stream_convolve.md). -/

namespace Sys2Proof.Machine

/-- The outputs of an accepted pixel: `s` is the state before the edge, `t` the state after the slot write. The
window is read from the buffer after the write, at the slot the cursor named before the edge
(R58, R60, 20_memory.md R38). -/
def pixelOutputs (s t : State) : State :=
  if completesWindow s.n.val then t.emit (narrow8 (acc t.lb t.w s.wptr)) else t.noResult

/-- `PIX d`: the byte is written to the line buffer, the cursor and the count move on, and a completed window gives
its sample in the same cycle; violations 1, 2 and 5 in the order of the pseudocode
(R58, 60_exceptions.md R73, R74, R77). -/
def execPix (d : Byte) (s : State) : Result :=
  if s.undef then raise .notReset s
  else if s.wcnt.val < Config.NW then raise .streamBeforeWeights s
  else if s.n.val < Config.NPIX then .next (pixelOutputs s (s.acceptPixel d))
  else raise .frameOverrun s

end Sys2Proof.Machine
end

