-- ==== Sys2Proof/Machine/WeightLoad.lean ====
section
/-! DEFINITION. The weight load (41_weight_load.md). -/

namespace Sys2Proof.Machine

/-- `LDW d`: the byte becomes weight `w[wcnt]`; violations 1, 3 and 4 in the order of the pseudocode
(R54, 60_exceptions.md R73, R75, R76). -/
def execLdw (d : Byte) (s : State) : Result :=
  if s.undef then raise .notReset s
  else if s.wcnt.val < Config.NW then .next (s.loadWeight d).noResult
  else if s.n.val = 0 then raise .weightOverrun s
  else raise .weightWriteInStream s

end Sys2Proof.Machine
end

