-- ==== Sys2Proof/Machine/Dispatch.lean ====
section
/-! DEFINITION. The meaning of each operation, one arm per constructor of `Instr`. -/

namespace Sys2Proof.Machine

/-- One operation from one state (00_scope.md R5). -/
def exec (i : Instr) (s : State) : Host.Outcome State Fault Refusal :=
  match i with
  | .rst => Sys2Proof.Machine.execRst s
  | .ldw d => Sys2Proof.Machine.execLdw d s
  | .pix d => Sys2Proof.Machine.execPix d s
  | .nop => Sys2Proof.Machine.execNop s

end Sys2Proof.Machine
end

