-- ==== Sys2Proof/Machine/Step.lean ====
section
/-! DEFINITION. One clock cycle: the stimulus word on the pins selects the operation, which is performed, and the
harness goes on to its next word. -/

namespace Sys2Proof.Machine

/-- One full clock cycle (00_scope.md R5; log 15). With no stimulus word left the run has ended
(70_reset_and_hazards.md R96; log 7). -/
def step (s : State) : Host.Outcome State Fault Refusal :=
  match s.fetch with
  | some x => finishCycle (exec (decode x) s)
  | none => .refused .endOfRun

/-- The state in which the next cycle is presented with the word whose bits are `w`; a number that is no stimulus
word cannot be presented (30_encoding.md R40). -/
def State.withFetchWord (s : State) (_nbits w : Nat) : State :=
  match stimWordOfNat? w with
  | some x => s.present x
  | none => { s with stimulus := [] }

end Sys2Proof.Machine
end

