-- ==== Sys2Proof/Machine/Assembler.lean ====
section
/-! DEFINITION. The textual syntax of stimulus programs (30_encoding.md R45; decision D4, log 18): a program is a
sequence of lines, each one operation, perhaps repeated, each assembled to canonical words (R43). -/

namespace Sys2Proof.Machine

/-- An operation as it is written: the operand is a number, not yet known to be in range. -/
inductive WrittenOp where
  | rst
  | ldw (operand : Nat)
  | pix (operand : Nat)
  | nop
  deriving DecidableEq, Repr

/-- A line: `op` or `op ×k`; `k = 1` where no repetition is written (R45). R45 names no least `k`; DESIGN CHOICE (log 18):
every natural number is a count, 0 among them, which gives no word. -/
structure Line where
  op : WrittenOp
  times : Nat
  deriving DecidableEq, Repr

/-- Why a text is no program. -/
inductive SyntaxError where
  /-- The first word of a line is none of the four names. -/
  | unknownOperation
  /-- `LDW` or `PIX` without a number. -/
  | missingOperand
  /-- A word that is no number where one must stand. -/
  | badNumber
  /-- An operand above 255. -/
  | operandOutOfRange
  /-- Something after the end of the line's operation. -/
  | trailingText
  deriving DecidableEq, Repr

/-- The operation of a written one, its operand in range. -/
def WrittenOp.instr : WrittenOp → Except SyntaxError Instr
  | .rst => .ok .rst
  | .nop => .ok .nop
  | .ldw k => match operandOfNat? k with
    | some d => .ok (.ldw d)
    | none => .error .operandOutOfRange
  | .pix k => match operandOfNat? k with
    | some d => .ok (.pix d)
    | none => .error .operandOutOfRange

/-- The canonical words of a line (R43, R45). -/
def Line.assemble (l : Line) : Except SyntaxError (List StimWord) :=
  match l.op.instr with
  | .ok i => .ok (List.replicate l.times (encode i))
  | .error e => .error e

/-- The words of a program, from top to bottom (R45). -/
def assemble : List Line → Except SyntaxError (List StimWord)
  | [] => .ok []
  | l :: ls => match l.assemble, assemble ls with
    | .ok ws, .ok rest => .ok (ws ++ rest)
    | .error e, _ => .error e
    | .ok _, .error e => .error e

/-! ### From characters to lines -/

/-- A character that separates words. DESIGN CHOICE (log 18): which characters do. -/
def isBlank (c : Char) : Bool := c = ' ' || c = '\t' || c = '\r'

/-- The value of a digit of the given base. DESIGN CHOICE (log 18): a letter may be small or capital. -/
def digitValue (base : Nat) (c : Char) : Option Nat :=
  let v :=
    if '0'.toNat ≤ c.toNat ∧ c.toNat ≤ '9'.toNat then c.toNat - '0'.toNat
    else if 'a'.toNat ≤ c.toNat ∧ c.toNat ≤ 'f'.toNat then c.toNat - 'a'.toNat + 10
    else if 'A'.toNat ≤ c.toNat ∧ c.toNat ≤ 'F'.toNat then c.toNat - 'A'.toNat + 10
    else base
  if v < base then some v else none

/-- Digits of the given base read on from a value. -/
def digitsFrom (base : Nat) : Nat → List Char → Option Nat
  | v, [] => some v
  | v, c :: cs => match digitValue base c with
    | some k => digitsFrom base (base * v + k) cs
    | none => none

/-- A number in decimal or, after `0x`, hexadecimal (R45). DESIGN CHOICE (log 18): leading zeros are allowed, and the
prefix is written small. -/
def number : List Char → Option Nat
  | [] => none
  | ['0', 'x'] => none
  | '0' :: 'x' :: cs => digitsFrom 16 0 cs
  | cs => digitsFrom 10 0 cs

/-- The words of a line, up to its comment (R45: a comment starts with `;`); `word` is the one being read. -/
def wordsFrom (word : List Char) : List Char → List (List Char)
  | [] => if word.isEmpty then [] else [word]
  | c :: cs =>
    if c = ';' then (if word.isEmpty then [] else [word])
    else if isBlank c then (if word.isEmpty then wordsFrom [] cs else word :: wordsFrom [] cs)
    else wordsFrom (word ++ [c]) cs

/-- The end of a line: nothing, or `×k` (R45). DESIGN CHOICE (log 18): R45 does not say how `k` is written; it is read as
an operand is, decimal or `0x` hexadecimal, right behind its `×`, and `×0` is accepted. -/
def lineEnd (op : WrittenOp) : List (List Char) → Except SyntaxError (Option Line)
  | [] => .ok (some ⟨op, 1⟩)
  | [('×' :: k)] => match number k with
    | some k => .ok (some ⟨op, k⟩)
    | none => .error .badNumber
  | _ => .error .trailingText

/-- The operand of a line and its end. -/
def lineOperand (op : Nat → WrittenOp) : List (List Char) → Except SyntaxError (Option Line)
  | [] => .error .missingOperand
  | k :: rest => match number k with
    | some k => lineEnd (op k) rest
    | none => .error .badNumber

/-- A line of text: nothing where it is empty or only a comment. -/
def parseLine (text : List Char) : Except SyntaxError (Option Line) :=
  match wordsFrom [] text with
  | [] => .ok none
  | ['R', 'S', 'T'] :: rest => lineEnd .rst rest
  | ['N', 'O', 'P'] :: rest => lineEnd .nop rest
  | ['L', 'D', 'W'] :: rest => lineOperand .ldw rest
  | ['P', 'I', 'X'] :: rest => lineOperand .pix rest
  | _ => .error .unknownOperation

/-- The lines of a text; `line` is the one being read. -/
def textLinesFrom (line : List Char) : List Char → List (List Char)
  | [] => [line]
  | c :: cs => if c = '\n' then line :: textLinesFrom [] cs else textLinesFrom (line ++ [c]) cs

/-- The program of a list of text lines. -/
def parseLines : List (List Char) → Except SyntaxError (List Line)
  | [] => .ok []
  | t :: ts => match parseLine t, parseLines ts with
    | .ok (some l), .ok ls => .ok (l :: ls)
    | .ok none, .ok ls => .ok ls
    | .error e, _ => .error e
    | .ok _, .error e => .error e

/-- The stimulus words of a program text (R45). -/
def assembleText (text : List Char) : Except SyntaxError (List StimWord) :=
  match parseLines (textLinesFrom [] text) with
  | .ok ls => assemble ls
  | .error e => .error e

end Sys2Proof.Machine
end

