-- ==== Sys2Proof/Machine/Harness.lean ====
section
/-! DEFINITION. The host side: the three driver operations as runs of stimulus words (30_encoding.md R46 to R49),
and a run of the machine with what the harness records of it (43_output_controller.md R71, 60_exceptions.md R83,
70_reset_and_hazards.md R96). -/

namespace Sys2Proof.Machine

/-- A 3x3 weight matrix, by rows. -/
abbrev Kernel := Vector (Vector Byte Config.K) Config.K
/-- An `H×W` image, by rows. -/
abbrev Image := Vector (Vector Byte Config.W) Config.H

/-- The coefficients in load order, row-major (20_memory.md R33). -/
def Kernel.rowMajor (m : Kernel) : List Byte := m.toList.flatMap Vector.toList

/-- The pixels in stream order, row-major (R33, 30_encoding.md R49). -/
def Image.rowMajor (img : Image) : List Byte := img.toList.flatMap Vector.toList

/-- `reset()`: one `RST` (R46). -/
def resetWords : List StimWord := [encode .rst]

/-- `loadWeights(m)`: nine `LDW`, row-major, with `input_valid` low (R47; log 26). -/
def loadWeightsWords (m : Kernel) : List StimWord := (Kernel.rowMajor m).map fun d => encode (.ldw d)

/-- `streamImage(img)`: one `PIX` for every pixel, row-major (R48). -/
def streamImageWords (img : Image) : List StimWord := (Image.rowMajor img).map fun d => encode (.pix d)

/-- The full documented run `reset(); loadWeights(m); streamImage(img)` (R49). -/
def fullRunWords (m : Kernel) (img : Image) : List StimWord :=
  resetWords ++ loadWeightsWords m ++ streamImageWords img

/-- What the harness holds while it drives the engine: the machine, the samples taken so far in order, and the
violations so far in order. -/
structure Run where
  /-- The machine between two cycles. -/
  state : State
  /-- The samples taken, the first one first (43_output_controller.md R71). -/
  samples : List Byte
  /-- The record of violations, never cleared (60_exceptions.md R83). -/
  faults : List Fault
  deriving DecidableEq, Repr

/-- A run that begins in a state, with nothing recorded. -/
def Run.begin (s : State) : Run := ⟨s, [], []⟩

/-- The machine after a violation, where the harness goes on all the same: UNDEF, at the next cycle
(60_exceptions.md R72; decision D17, log 22). -/
def State.afterViolation (s : State) : State := s.enterUndef.endCycle

/-- One cycle of a run with the word `x` on the pins. A step with a word presented is never refused; the last arm is
there because every outcome has one. -/
def Run.cycle (r : Run) (x : StimWord) : Run :=
  match step (r.state.present x) with
  | .next t => ⟨t, r.samples ++ t.sample.toList, r.faults⟩
  | .fault f => ⟨(r.state.present x).afterViolation, r.samples, r.faults ++ [f]⟩
  | .refused _ => r

/-- A run over a list of stimulus words (R96). -/
def Run.drive (r : Run) (ws : List StimWord) : Run := ws.foldl Run.cycle r

/-- A run is complete: defined, all weights loaded, the whole frame accepted, no violation recorded (R96). -/
def Run.complete (r : Run) : Bool :=
  !r.state.undef && decide (r.state.wcnt.val = Config.NW) && decide (r.state.n.val = Config.NPIX)
    && r.faults.isEmpty

/-- The result grid of shape `OH × OW` (30_encoding.md R48); a cell that no sample has reached holds nothing (log 27). -/
abbrev OutputGrid := Vector (Vector (Option Byte) Config.OW) Config.OH

/-- The result grid after the samples appended so far, row-major: sample `m` stands in cell
`[m div OW][m mod OW]` (R48). -/
def outputGrid (samples : List Byte) : OutputGrid :=
  Vector.ofFn fun y => Vector.ofFn fun x => samples[y.val * Config.OW + x.val]?

/-- Output sample `(y, x)` of the result grid, `y` and `x` within its shape (R48). -/
def gridSample (samples : List Byte) (y : Fin Config.OH) (x : Fin Config.OW) : Option Byte :=
  ((outputGrid samples)[y.val])[x.val]

/-- `loadWeights` checks the registers against the matrix (R47, 10_state.md R27). In UNDEF there is no register value to
check, and the check has no answer (10_state.md R16; log 28). -/
def weightsEqual (m : Kernel) (s : State) : Option Bool :=
  s.visible.map fun v => v.1.toList == Kernel.rowMajor m

/-- The operation `reset()` of the driver (R46). -/
def Run.reset (r : Run) : Run := r.drive resetWords

/-- The operation `loadWeights(m)` of the driver, with the answer of its check of the registers (R47). -/
def Run.loadWeights (r : Run) (m : Kernel) : Run × Option Bool :=
  let r' := r.drive (loadWeightsWords m)
  (r', weightsEqual m r'.state)

/-- The operation `streamImage(img)` of the driver, with the grid it returns: the samples of its own cycles, the first
at the grid's first position (R48). -/
def Run.streamImage (r : Run) (img : Image) : Run × OutputGrid :=
  let r' := r.drive (streamImageWords img)
  (r', outputGrid (r'.samples.drop r.samples.length))

end Sys2Proof.Machine
end

