-- ==== Sys2Proof/Safety.lean ====
section
/-! DEFINITION. The terms in which claims are made: which operation a state allows, the invariant of every state
the rules reach, what it is for the line buffer to hold an image, and the convolution itself. -/

namespace Sys2Proof.Safety

open Sys2Proof.Machine

/-- The harness's fields are as before: no operation of the engine touches them (00_scope.md R4). -/
def SameHarness (s t : State) : Prop := t.stimulus = s.stimulus ∧ t.cycle = s.cycle

/-- The reset values of 10_state.md R28 but for `pixel_out`, which R28 leaves unspecified. -/
def AtReset (t : State) : Prop :=
  t.undef = false ∧ (∀ i, readWeight t.w i = 0) ∧ t.wcnt.val = 0 ∧ (∀ a, Memory.read t.lb a = 0) ∧
    t.n.val = 0 ∧ t.wptr.val = 0 ∧ t.outputValid = false

/-- The bits of a stimulus word that fix its operation and operand; the others are ignored
(30_encoding.md R42, R43). -/
def usedBits : Instr → StimWord
  | .rst => 0x400
  | .ldw _ => 0x6FF
  | .pix _ => 0x7FF
  | .nop => 0x700

/-- The words of a list of pixels. -/
def pixWords (px : List Byte) : List StimWord := px.map fun d => encode (.pix d)

/-- A cell of the legality table (30_encoding.md R44). -/
inductive Legality where
  /-- `P`: performed. -/
  | performed
  /-- `=`: the state stays UNDEF. -/
  | staysUndef
  /-- `V`: a protocol violation with its code. -/
  | violation (code : Nat)
  deriving DecidableEq, Repr

/-- The legality table: the phase, the pixel count, the operation (R44). -/
def legality (phase : Phase) (n : Nat) : Instr → Legality
  | .rst => .performed
  | .nop => match phase with
    | .undef => .staysUndef
    | .loading => .performed
    | .streaming => .performed
    | .frameDone => .performed
  | .ldw _ => match phase with
    | .undef => .violation 1
    | .loading => .performed
    | .streaming => if n = 0 then .violation 3 else .violation 4
    | .frameDone => .violation 4
  | .pix _ => match phase with
    | .undef => .violation 1
    | .loading => .violation 2
    | .streaming => .performed
    | .frameDone => .violation 5

/-- The invariant of the states the rules reach (10_state.md R29), clause (a) being in the types of the counters:
the line buffer keeps its canonical form always, the rest holds of every defined state. -/
structure EngineInv (s : State) : Prop where
  /-- The line buffer is in its one form. -/
  lbForm : s.lb.wf = true
  /-- (b): `wptr = n mod C`. -/
  cursor : s.undef = false → s.wptr.val = s.n.val % Config.C
  /-- (c): no pixel is accepted before all nine weights are loaded. -/
  loadFirst : s.undef = false → s.wcnt.val < Config.NW → s.n.val = 0
  /-- (d): `w[i] = 0` for every `i ≥ wcnt`. -/
  unloadedZero : s.undef = false → ∀ i : WeightIndex, s.wcnt.val ≤ i.val → readWeight s.w i = 0
  /-- (f), second half: every slot `a ≥ n` holds 0. -/
  unwrittenZero : s.undef = false → ∀ a : Slot, s.n.val ≤ a.val → Memory.read s.lb a = 0
  /-- (g): `output_valid = 1` only where the pixel accepted last completed a window. -/
  validOnlyAtWindow : s.undef = false → s.outputValid = true → ∃ p, s.n.val = p + 1 ∧ completesWindow p = true

/-- The engine is defined and holds the accepted pixels `px`, the first one first: the count, the cursor and the
contents law of the line buffer (20_memory.md R37, 10_state.md R29 (f)). -/
structure HoldsPixels (s : State) (px : List Byte) : Prop where
  defined : s.undef = false
  count : s.n.val = px.length
  cursor : s.wptr.val = px.length % Config.C
  lbForm : s.lb.wf = true
  /-- The most recent `C` pixels, pixel `q` in slot `q mod C`. -/
  recent : ∀ (q : Nat) (h : q < px.length), px.length ≤ q + Config.C → Memory.readAt s.lb (q % Config.C) = px[q]
  /-- Slots no pixel has reached hold 0. -/
  unwritten : ∀ a, px.length ≤ a → a < Config.C → Memory.readAt s.lb a = 0

/-- The pixel of linear index `p` in a list of accepted pixels. -/
def pixelAt (px : List Byte) (p : Nat) : Nat := (px[p]?.getD 0).toNat

/-- The exact sum of the window whose bottom-right corner is pixel `p` of `px` and the weights: window element
`(i, j)` is pixel `p − (2 − i)·W − (2 − j)` and meets `weight[i][j]` (20_memory.md R32, 42_stream_convolve.md R60). -/
def windowSum (w : Weights) (px : List Byte) (p : Nat) : Nat :=
  sum3 fun i => sum3 fun j =>
    pixelAt px (p - ((2 - i.val) * Config.W + (2 - j.val))) * (readWeight w (weightIndex i j)).toNat

/-- The exact sum of output sample `(y, x)` of an image, written over the two matrices alone:
`Σ img[y+i][x+j] · m[i][j]` (43_output_controller.md R67, 42_stream_convolve.md R60). -/
def convolveAt (m : Kernel) (img : Image) (y : Fin Config.OH) (x : Fin Config.OW) : Nat :=
  sum3 fun i => sum3 fun j =>
    ((img[y.val + i.val]'(by
        have := i.isLt; have := y.isLt; simp only [Config.OH, Config.H, Config.K] at *; omega))[x.val + j.val]'(by
        have := j.isLt; have := x.isLt; simp only [Config.OW, Config.W, Config.K] at *; omega)).toNat
      * ((m[i.val])[j.val]).toNat

/-- The kernel that is 1 at the centre and 0 elsewhere (42_stream_convolve.md R62). -/
def identityKernel : Kernel := #v[#v[0, 0, 0], #v[0, 1, 0], #v[0, 0, 0]]

/-- The number of results after `n` accepted pixels: with `(r, c)` the position of the last one,
`max(0, r − 2)·OW + (if r ≥ 2 then max(0, c − 1) else 0)`, and 0 before the first
(43_output_controller.md R68; conflict C9). -/
def resultsAfter (n : Nat) : Nat :=
  match n with
  | 0 => 0
  | p + 1 => (row p - 2) * Config.OW + (if 2 ≤ row p then col p - 1 else 0)

/-- A function from exact sums to samples the spec admits: the identity on `0..255` (00_scope.md R10). -/
def admissible (f : Nat → Byte) : Prop := ∀ sum, sum ≤ 255 → (f sum).toNat = sum

end Sys2Proof.Safety
end

