-- ==== Sys2Proof/Certificates/Slice0/Obligations.lean ====
section
/-! DEFINITION. The statements about the machine. Each says which sentences of the spec it formalises. -/

open Sys2Proof Sys2Proof.Machine Sys2Proof.Safety

/-! ### Reset and idle -/

/-- The state after reset (10_state.md section 6). The contents of the line buffer are the spec's own decision D11
(log 6); `pixel_out` is unspecified. -/
def Obligations.ResetStateHoldsTheResetValues : Prop :=
  AtReset State.reset ∧ State.reset.lb.wf = true

/-- `RST` performs in every state, UNDEF among them, and leaves the reset values (40_reset_idle.md, RST). The
contents of the line buffer are the spec's own decision D11 (log 6). -/
def Obligations.RstResetsFromEveryState : Prop :=
  ∀ s : State, ∃ t, exec .rst s = .next t ∧ AtReset t ∧ t.lb.wf = true ∧ SameHarness s t

/-- `NOP` performs in every defined state, holds `w`, `wcnt`, `lb`, `n`, `wptr` and gives no result
(40_reset_idle.md, NOP). That idle cycles are legal is the spec's own decision D15 (log 13). -/
def Obligations.NopHoldsADefinedState : Prop :=
  ∀ s : State, s.undef = false →
    ∃ t, exec .nop s = .next t ∧ t.undef = false ∧ t.w = s.w ∧ t.wcnt = s.wcnt ∧ t.lb = s.lb ∧ t.n = s.n ∧
      t.wptr = s.wptr ∧ t.outputValid = false ∧ SameHarness s t

/-- `NOP` in UNDEF stays UNDEF and raises nothing: the spec's own decision D9 (40_reset_idle.md, corner cases of
NOP; log 4). -/
def Obligations.NopInUndefStaysUndef : Prop :=
  ∀ s : State, s.undef = true → ∃ t, exec .nop s = .next t ∧ t.undef = true ∧ SameHarness s t

/-! ### UNDEF -/

/-- No field of an UNDEF state is read: two UNDEF states that agree on the model's own fields step alike
(10_state.md section 2, decision D9; log 4). -/
def Obligations.UndefFieldsAreNeverRead : Prop :=
  ∀ s s' : State, s.undef = true → s'.undef = true → s.draws = s'.draws → s.stimulus = s'.stimulus →
    s.cycle = s'.cycle → step s = step s'

/-- Only `RST` leaves UNDEF (10_state.md section 2, decision D9; log 4). -/
def Obligations.OnlyRstLeavesUndef : Prop :=
  ∀ (i : Instr) (s t : State), s.undef = true → exec i s = .next t → (t.undef = false ↔ i = .rst)

/-- In a defined state no result depends on what the output pins show or on earlier unspecified values: the same
operation answers alike, `pixel_out` compared only where `output_valid = 1` (10_state.md section 2, decision D12;
00_scope.md section 4; log 2). -/
def Obligations.ResultsIgnoreOldOutputsAndDraws : Prop :=
  ∀ (i : Instr) (s : State) (b : Bool) (v : Byte) (k : Nat), s.undef = false →
    match exec i s, exec i { s with outputValid := b, pixelOut := v, draws := k } with
    | .next t, .next t' =>
      t'.undef = t.undef ∧ t'.w = t.w ∧ t'.wcnt = t.wcnt ∧ t'.n = t.n ∧ t'.wptr = t.wptr ∧ t'.lb = t.lb ∧
        t'.outputValid = t.outputValid ∧ (t.outputValid = true → t'.pixelOut = t.pixelOut) ∧ SameHarness t t'
    | .fault f, .fault f' => f = f'
    | _, _ => False

/-! ### Weight load -/

/-- `LDW` with fewer than nine weights loaded writes `w[wcnt]`, advances `wcnt` and touches nothing else of the
engine but the outputs (41_weight_load.md, LDW). That `iv` is ignored is decided before this, in the decoder. -/
def Obligations.LdwLoadsTheNextWeight : Prop :=
  ∀ (s : State) (d : Byte), s.undef = false → s.wcnt.val < 9 →
    ∃ t, exec (.ldw d) s = .next t ∧ t.undef = false ∧
      (∀ i : WeightIndex, readWeight t.w i = if i.val = s.wcnt.val then d else readWeight s.w i) ∧
      t.wcnt.val = s.wcnt.val + 1 ∧ t.lb = s.lb ∧ t.n = s.n ∧ t.wptr = s.wptr ∧ t.outputValid = false ∧
      SameHarness s t

/-- The violations of `LDW`, with the cycle and the word they record (60_exceptions.md section 2). That the model
stops there, and the codes, are the spec's own decision D8 (log 8, log 9). -/
def Obligations.LdwViolations : Prop :=
  ∀ (s : State) (d : Byte),
    (s.undef = true → exec (.ldw d) s = .fault (.notReset s.cycle s.stimulus.head?)) ∧
    (s.undef = false → s.wcnt.val = 9 → s.n.val = 0 →
      exec (.ldw d) s = .fault (.weightOverrun s.cycle s.stimulus.head?)) ∧
    (s.undef = false → s.wcnt.val = 9 → 1 ≤ s.n.val →
      exec (.ldw d) s = .fault (.weightWriteInStream s.cycle s.stimulus.head?))

/-- The k-th `LDW` after a reset writes `w[k]`, which is `weight[k div 3][k mod 3]`; after the ninth the registers
equal the matrix and stay so through a whole frame (41_weight_load.md R55). -/
def Obligations.LoadedWeightsEqualTheMatrixAndPersist : Prop :=
  ∀ (r : Run) (m : Kernel), r.state.undef = false → r.state.wcnt.val = 0 → r.state.n.val = 0 →
    (∀ k, k ≤ 9 →
      ((r.drive ((loadWeightsWords m).take k)).state.wcnt.val = k ∧
        ∀ i j : Fin 3, 3 * i.val + j.val < k →
          readWeight (r.drive ((loadWeightsWords m).take k)).state.w (weightIndex i j) = (m[i.val])[j.val])) ∧
    (∀ px : List Byte, px.length ≤ 256 →
      weightsEqual m (r.drive (loadWeightsWords m ++ pixWords px)).state = some true ∧
        (r.drive (loadWeightsWords m ++ pixWords px)).faults = r.faults)

/-- Once nine weights are loaded no cycle but a reset changes a weight (10_state.md section 7 (e)). -/
def Obligations.WeightsAreImmutableOnceLoaded : Prop :=
  ∀ (s t : State) (x : StimWord), s.undef = false → s.wcnt.val = 9 → s.fetch = some x → decode x ≠ .rst →
    step s = .next t → t.undef = false ∧ t.w = s.w ∧ t.wcnt = s.wcnt

/-! ### Pixel acceptance and convolution -/

/-- `PIX` in the streaming phase is performed: the byte goes to the slot of the cursor, count and cursor advance,
and the outputs are the narrowed sum where the pixel completes a window (42_stream_convolve.md, PIX). The exact sum
is the spec's own decision D6 (log 11). -/
def Obligations.PixAcceptsThePixel : Prop :=
  ∀ (s : State) (d : Byte), s.undef = false → s.wcnt.val = 9 → s.n.val < 256 → s.lb.wf = true →
    ∃ t, exec (.pix d) s = .next t ∧ t.undef = false ∧ t.w = s.w ∧ t.wcnt = s.wcnt ∧
      t.n.val = s.n.val + 1 ∧ t.wptr.val = (s.wptr.val + 1) % 35 ∧ t.lb.wf = true ∧
      (∀ a : Slot, Memory.read t.lb a = if a = s.wptr then d else Memory.read s.lb a) ∧
      (2 ≤ s.n.val / 16 ∧ 2 ≤ s.n.val % 16 →
        t.outputValid = true ∧ t.pixelOut = narrow8 (acc t.lb s.w s.wptr)) ∧
      (¬ (2 ≤ s.n.val / 16 ∧ 2 ≤ s.n.val % 16) → t.outputValid = false) ∧ SameHarness s t

/-- The violations of `PIX`, with the cycle and the word they record (60_exceptions.md section 2). That the model
stops there, the codes, and one frame per reset are the spec's own decisions D8 and D10 (log 8, log 9, log 14). -/
def Obligations.PixViolations : Prop :=
  ∀ (s : State) (d : Byte),
    (s.undef = true → exec (.pix d) s = .fault (.notReset s.cycle s.stimulus.head?)) ∧
    (s.undef = false → s.wcnt.val < 9 →
      exec (.pix d) s = .fault (.streamBeforeWeights s.cycle s.stimulus.head?)) ∧
    (s.undef = false → s.wcnt.val = 9 → s.n.val = 256 →
      exec (.pix d) s = .fault (.frameOverrun s.cycle s.stimulus.head?))

/-- An accepted pixel is written to the slot the cursor named and the cursor moves on modulo `C`; pixel `p` lands in
slot `p mod C`; `LDW` and `NOP` write no slot (20_memory.md R31). -/
def Obligations.PixelsLandInConsecutiveSlots : Prop :=
  (∀ (s t : State) (d : Byte), s.lb.wf = true → exec (.pix d) s = .next t →
    (∀ a : Slot, Memory.read t.lb a = if a = s.wptr then d else Memory.read s.lb a) ∧
      t.wptr.val = (s.wptr.val + 1) % 35 ∧
      (s.wptr.val = s.n.val % 35 → Memory.readAt t.lb (s.n.val % 35) = d)) ∧
  (∀ (s t : State) (i : Instr), s.undef = false → (i = .nop ∨ ∃ d, i = .ldw d) → exec i s = .next t →
    t.lb = s.lb ∧ t.wptr = s.wptr)

/-- The nine window slots: the integer formula modulo `C`, the offsets 34, 33, 32, 18, 17, 16, 2, 1, 0, nine
different slots, the top-left one the next to be overwritten (20_memory.md section 3, derived there). -/
def Obligations.WindowSlotsAreTheNineOffsets : Prop :=
  ∀ a : Slot,
    (∀ i j : Fin 3, ((windowSlot a i j).val : Int) =
      ((a.val : Int) - (2 - (i.val : Int)) * 16 - (2 - (j.val : Int))) % 35) ∧
    (∀ i j i' j' : Fin 3, windowSlot a i j = windowSlot a i' j' → i = i' ∧ j = j') ∧
    windowSlot a 0 0 = Slot.next a ∧ windowSlot a 2 2 = a

/-- The accumulator is the exact sum of the nine products, window element `(i, j)` against `weight[i][j]`
(42_stream_convolve.md, the datapath). Exactness and orientation are the spec's own decisions D6 and D7
(log 11, log 12). -/
def Obligations.AccumulatorSumsTheNineProducts : Prop :=
  ∀ (lb : Memory) (w : Weights) (a : Slot),
    acc lb w a = ∑ i : Fin 3, ∑ j : Fin 3,
      (Memory.readAt lb (((a.val : Int) - (2 - (i.val : Int)) * 16 - (2 - (j.val : Int))) % 35).toNat).toNat
        * (readWeight w (weightIndex i j)).toNat

/-- The arithmetic is unsigned and exact until the narrowing: the accumulator is the double sum of the products over the
naturals, every product and the sum keep within their bounds, every admissible policy is the identity up to 255, and above
that `WRAP` and `SAT` give their values (42_stream_convolve.md, the datapath). That the sum is formed exactly, and the
orientation, are the spec's own decisions D6 and D7 (log 11, log 12). -/
def Obligations.ArithmeticIsExactUntilNarrowing : Prop :=
  ∀ (lb : Memory) (w : Weights) (a : Slot),
    (acc lb w a = ∑ i : Fin 3, ∑ j : Fin 3,
      (Memory.readAt lb (((a.val : Int) - (2 - (i.val : Int)) * 16 - (2 - (j.val : Int))) % 35).toNat).toNat
        * (readWeight w (weightIndex i j)).toNat) ∧
    (∀ i j : Fin 3, (window lb a i j).toNat * (readWeight w (weightIndex i j)).toNat ≤ 65025) ∧
    acc lb w a ≤ 585225 ∧ acc lb w a < 2 ^ 20 ∧
    (acc lb w a ≤ 255 → (narrow8 (acc lb w a)).toNat = acc lb w a) ∧
    (acc lb w a ≤ 255 → ∀ f, admissible f → (f (acc lb w a)).toNat = acc lb w a) ∧
    (256 ≤ acc lb w a →
      (wrapPolicy (acc lb w a)).toNat = acc lb w a % 256 ∧ (satPolicy (acc lb w a)).toNat = 255)

/-- `narrow8` and both named instances are admissible: the identity on `0..255`; the instances are `s mod 256` and
`min(s, 255)` everywhere (00_scope.md section 5, decision D5; log 1). -/
def Obligations.NarrowingIsAdmissible : Prop :=
  admissible narrow8 ∧ admissible wrapPolicy ∧ admissible satPolicy ∧
    ∀ sum : Nat, (wrapPolicy sum).toNat = sum % 256 ∧ (satPolicy sum).toNat = min sum 255

/-- The contents law: after a reset the engine holds no pixel, an accepted pixel joins the history it holds, and the
other operations leave it (20_memory.md section 8, derived there). That the slots no pixel has reached hold 0, which
`HoldsPixels` says and `RST` establishes, is the spec's own decision D11 (log 6). -/
def Obligations.LineBufferHoldsTheRecentPixels : Prop :=
  (∀ s t : State, exec .rst s = .next t → HoldsPixels t []) ∧
  (∀ (s t : State) (px : List Byte) (d : Byte), HoldsPixels s px → exec (.pix d) s = .next t →
    HoldsPixels t (px ++ [d])) ∧
  (∀ (s t : State) (px : List Byte) (d : Byte), HoldsPixels s px → exec (.ldw d) s = .next t →
    HoldsPixels t px) ∧
  (∀ (s t : State) (px : List Byte), HoldsPixels s px → exec .nop s = .next t → HoldsPixels t px)

/-- With the pixels `px` held, a `PIX` that completes a window emits the narrowed convolution of the nine pixels of
the image around it (42_stream_convolve.md, the datapath, with 20_memory.md section 3). Exactness and orientation are
the spec's own decisions D6 and D7 (log 11, log 12). -/
def Obligations.PixEmitsTheConvolutionOfTheHeldPixels : Prop :=
  ∀ (s : State) (px : List Byte) (d : Byte), HoldsPixels s px → s.wcnt.val = 9 → px.length < 256 →
    2 ≤ px.length / 16 → 2 ≤ px.length % 16 →
    ∃ t, exec (.pix d) s = .next t ∧ t.outputValid = true ∧
      t.pixelOut = narrow8 (windowSum s.w (px ++ [d]) px.length)

/-! ### The output controller -/

/-- `output_valid` is written by every operation in every defined state, to 1 exactly by a `PIX` whose pixel completes
a window, and nothing inside the engine reads it (10_state.md R21). -/
def Obligations.OutputValidIsWrittenByEveryOperation : Prop :=
  ∀ (i : Instr) (s : State), s.undef = false →
    (∀ t, exec i s = .next t →
      (t.outputValid = true ↔ (∃ d, i = .pix d) ∧ 2 ≤ s.n.val / 16 ∧ 2 ≤ s.n.val % 16)) ∧
    (∀ b : Bool, exec i { s with outputValid := b } = exec i s)

/-- A `PIX` raises `output_valid` if and only if the pixel's row and column are at least `K − 1`; equivalently, if and
only if the centre of its window lies in `[1, H − 2] × [1, W − 2]` (43_output_controller.md R65). -/
def Obligations.PixIsValidExactlyAtWindows : Prop :=
  ∀ (s : State) (d : Byte), s.undef = false → s.wcnt.val = 9 → s.n.val < 256 →
    ∃ t, exec (.pix d) s = .next t ∧
      (t.outputValid = true ↔ 3 - 1 ≤ s.n.val / 16 ∧ 3 - 1 ≤ s.n.val % 16) ∧
      (t.outputValid = true ↔
        (1 ≤ (s.n.val / 16 : Int) - 1 ∧ (s.n.val / 16 : Int) - 1 ≤ 16 - 2) ∧
          (1 ≤ (s.n.val % 16 : Int) - 1 ∧ (s.n.val % 16 : Int) - 1 ≤ 16 - 2))

/-- Every other cycle: `output_valid` is 0 after `RST`, after every `LDW`, after every `NOP` of a defined state, and
after every `PIX` with `r < 2` or `c < 2` (43_output_controller.md R66). -/
def Obligations.OutputValidIsLowInEveryOtherCycle : Prop :=
  (∀ s t : State, exec .rst s = .next t → t.outputValid = false) ∧
  (∀ (s t : State) (d : Byte), exec (.ldw d) s = .next t → t.outputValid = false) ∧
  (∀ s t : State, s.undef = false → exec .nop s = .next t → t.outputValid = false) ∧
  (∀ (s t : State) (d : Byte), s.n.val / 16 < 2 ∨ s.n.val % 16 < 2 → exec (.pix d) s = .next t →
    t.outputValid = false)

/-- The order of the results: streaming any pixels, up to a frame, from a fresh load, the result of pixel `(r, c)` with
`r ≥ 2` and `c ≥ 2` is sample number `m = (r − 2)·OW + (c − 2)` of the stream: that sample is what the pins show in the
cycle that accepts the pixel, and exactly `m` samples were taken before it (43_output_controller.md, order and index of
results; derived there). -/
def Obligations.ResultsAreNumberedInRasterOrder : Prop :=
  ∀ (r : Run) (px : List Byte), r.state.undef = false → r.state.wcnt.val = 9 → r.state.n.val = 0 →
    px.length ≤ 256 → ∀ p, p < px.length → 2 ≤ p / 16 → 2 ≤ p % 16 →
    (r.drive (pixWords (px.take p))).samples.length = r.samples.length + ((p / 16 - 2) * 14 + (p % 16 - 2)) ∧
    (r.drive (pixWords (px.take (p + 1)))).state.outputValid = true ∧
    (r.drive (pixWords px)).samples[r.samples.length + ((p / 16 - 2) * 14 + (p % 16 - 2))]? =
      some (r.drive (pixWords (px.take (p + 1)))).state.pixelOut

/-- The count law: streaming any number of pixels up to a frame from a fresh load gives as many results as the
running count says and no violation; 196 for the whole frame, none for the first 34 pixels
(43_output_controller.md, count law; its running count is derived there). -/
def Obligations.StreamingGivesTheCountedResults : Prop :=
  (∀ (r : Run) (px : List Byte), r.state.undef = false → r.state.wcnt.val = 9 → r.state.n.val = 0 →
    px.length ≤ 256 →
    (r.drive (pixWords px)).samples.length = r.samples.length + resultsAfter px.length ∧
      (r.drive (pixWords px)).faults = r.faults ∧ (r.drive (pixWords px)).state.n.val = px.length) ∧
  (∀ n, n ≤ 34 → resultsAfter n = 0) ∧ resultsAfter 35 = 1 ∧ resultsAfter 48 = 14 ∧ resultsAfter 256 = 196

/-! ### The whole run -/

/-- The identity kernel reproduces the centre of every window, whatever the overflow policy: for one `PIX` of an
engine that holds it, and for every image of a whole run, sample `(i − 1, j − 1)` is `img[i][j]` for every interior
pixel (42_stream_convolve.md R62). -/
def Obligations.IdentityKernelReproducesTheInterior : Prop :=
  (∀ (s t : State) (d : Byte), (∀ i : WeightIndex, readWeight s.w i = if i.val = 4 then 1 else 0) →
    exec (.pix d) s = .next t → t.outputValid = true →
    acc t.lb t.w s.wptr = (window t.lb s.wptr 1 1).toNat ∧ acc t.lb t.w s.wptr ≤ 255 ∧
      t.pixelOut = window t.lb s.wptr 1 1) ∧
  (∀ (r : Run) (img : Image) (i j : Fin 16),
    1 ≤ i.val → (_ : i.val ≤ 14) → 1 ≤ j.val → (_ : j.val ≤ 14) →
    (((r.reset.loadWeights identityKernel).1.streamImage img).2[i.val - 1]'(show i.val - 1 < 14 by omega))[j.val - 1]'(
      show j.val - 1 < 14 by omega) = some (img[i.val])[j.val])

/-- The full documented run computes the valid convolution: from any run whatever, `reset(); loadWeights(m);
streamImage(img)` takes 266 cycles, raises no violation, gives exactly 196 further samples, sample `(y, x)` the
narrowed sum `Σ img[y+i][x+j]·m[i][j]`, and ends with the frame done (30_encoding.md section 6,
43_output_controller.md). Exactness and orientation are the spec's own decisions D6 and D7 (log 11, log 12). -/
def Obligations.FullRunComputesTheConvolution : Prop :=
  ∀ (r : Run) (m : Kernel) (img : Image),
    (fullRunWords m img).length = 266 ∧
    (r.drive (fullRunWords m img)).faults = r.faults ∧
    (r.drive (fullRunWords m img)).samples.take r.samples.length = r.samples ∧
    (r.drive (fullRunWords m img)).samples.length = r.samples.length + 196 ∧
    (∀ y x : Fin 14,
      gridSample ((r.drive (fullRunWords m img)).samples.drop r.samples.length) y x =
        some (narrow8 (convolveAt m img y x))) ∧
    (r.drive (fullRunWords m img)).state.undef = false ∧
    (r.drive (fullRunWords m img)).state.phase = .frameDone ∧
    (r.drive (fullRunWords m img)).state.wptr.val = 11 ∧
    (r.drive (fullRunWords m img)).state.cycle = r.state.cycle + 266 ∧
    (r.faults = [] → (r.drive (fullRunWords m img)).complete = true)

/-! ### Protocol and sequencing -/

/-- Every operation in every state answers as its cell of the legality table says, a violation with its code and with
the cycle and the word it came in (30_encoding.md section 4). The table and the codes are the spec's own decision D8,
its UNDEF row D9, its V5 cell D10, its NOP column D15 (log 4, log 8, log 9, log 13, log 14). -/
def Obligations.ExecFollowsTheLegalityTable : Prop :=
  ∀ (i : Instr) (s : State),
    match legality s.phase s.n.val i with
    | .performed => ∃ t, exec i s = .next t ∧ t.undef = false
    | .staysUndef => ∃ t, exec i s = .next t ∧ t.undef = true
    | .violation k => ∃ f, exec i s = .fault f ∧ f.code = k ∧ f.cycle = s.cycle ∧ f.word = s.stimulus.head?

/-- The cursor law: `wptr = n mod C` in every defined state, in `0..C − 1`. Every cycle keeps it, a reset establishes it;
the cursor names the slot the next accepted pixel is written to, and advances exactly one slot for each accepted pixel
and for nothing else (10_state.md R20). -/
def Obligations.CursorIsTheCountModuloC : Prop :=
  (∀ s : State, s.wptr.val ≤ 34) ∧
  (∀ s t : State, exec .rst s = .next t → t.wptr.val = t.n.val % 35) ∧
  (∀ s t : State, (s.undef = false → s.wptr.val = s.n.val % 35) → step s = .next t →
    (t.undef = false → t.wptr.val = t.n.val % 35)) ∧
  (∀ (s t : State) (d : Byte), s.lb.wf = true → exec (.pix d) s = .next t →
    Memory.read t.lb s.wptr = d ∧ t.wptr.val = (s.wptr.val + 1) % 35 ∧ t.n.val = s.n.val + 1) ∧
  (∀ (s t : State) (i : Instr), s.undef = false → i = .nop ∨ (∃ d, i = .ldw d) → exec i s = .next t →
    t.wptr = s.wptr ∧ t.n = s.n)

/-- The invariant of every defined state (10_state.md section 7, derived there; with the canonical form of the line
buffer, log 24): every cycle keeps it, from every state that has it. That the slots `a ≥ n` hold 0 rests, at every `RST`,
on the spec's own decision D11 (log 6). -/
def Obligations.StepKeepsTheEngineInvariant : Prop :=
  ∀ s t : State, EngineInv s → step s = .next t → EngineInv t

/-- The invariant holds after reset and at power-on (10_state.md sections 6 and 7; log 4, log 5, log 6). -/
def Obligations.EngineInvariantHoldsAtResetAndPowerOn : Prop :=
  EngineInv State.reset ∧ EngineInv State.powerOn ∧ State.powerOn.undef = true

/-- No operation of the engine writes a field of the harness (00_scope.md section 4). -/
def Obligations.EngineLeavesTheHarnessAlone : Prop :=
  ∀ (i : Instr) (s t : State), exec i s = .next t → SameHarness s t

/-! ### The cycle and the harness -/

/-- A step runs the operation the word on the pins names, and the harness goes on to its next word and cycle
(00_scope.md section 4, 30_encoding.md section 3; the list of words is the model's, log 7). -/
def Obligations.StepRunsTheDecodedOperation : Prop :=
  ∀ (s : State) (x : StimWord) (rest : List StimWord) (i : Instr), s.stimulus = x :: rest → decode x = i →
    step s = match exec i s with
      | .next t => .next { t with stimulus := rest, cycle := s.cycle + 1 }
      | .fault f => .fault f
      | .refused r => .refused r

/-- A run ends when the stimulus words are exhausted (70_reset_and_hazards.md section 5; the refusal that says so is
the model's, log 7). -/
def Obligations.StepRefusesAtTheEndOfTheRun : Prop :=
  ∀ s : State, s.stimulus = [] → step s = .refused .endOfRun

/-- A word placed on the pins is the one the next step runs (log 7). -/
def Obligations.PlacedWordIsTheOneRun : Prop :=
  ∀ (s : State) (nbits w : Nat) (i : Instr), decodeTableWord nbits w = some i →
    step (s.withFetchWord nbits w) = finishCycle (exec i (s.withFetchWord nbits w))

/-- The record of violations is never cleared, whatever words follow (60_exceptions.md section 5; the spec's own decision
D17, log 22), and no sample once taken is lost: the harness only appends samples (43_output_controller.md, what the harness
does with the outputs; that the list of a run goes on across every word, resets and violations among them, is the model's
choice, log 25). -/
def Obligations.RunRecordsAreNeverCleared : Prop :=
  ∀ (r : Run) (ws : List StimWord),
    (∃ fs, (r.drive ws).faults = r.faults ++ fs) ∧ (∃ bs, (r.drive ws).samples = r.samples ++ bs)

/-- A violation leaves the run in UNDEF with the violation recorded; there a `NOP` keeps the run in UNDEF and records
nothing, a further `LDW` or `PIX` is violation 1, and only a `RST` restores a defined state: the reset values, the record
kept (60_exceptions.md section 5). Going on from UNDEF and keeping the record are the spec's own decision D17 (log 22),
the codes D8 (log 8), `NOP` in UNDEF D9 (log 4), and the zeroed line buffer D11 (log 6). -/
def Obligations.ResetIsTheWayBackFromAViolation : Prop :=
  (∀ (r : Run) (x : StimWord) (f : Fault), step (r.state.present x) = .fault f →
    (r.cycle x).state.undef = true ∧ (r.cycle x).faults = r.faults ++ [f] ∧
      (r.cycle x).samples = r.samples) ∧
  (∀ (r : Run) (x : StimWord), r.state.undef = true → decode x = .nop →
    (r.cycle x).state.undef = true ∧ (r.cycle x).faults = r.faults ∧ (r.cycle x).samples = r.samples) ∧
  (∀ (r : Run) (x : StimWord) (d : Byte), r.state.undef = true → decode x = .ldw d ∨ decode x = .pix d →
    (r.cycle x).state.undef = true ∧ ∃ f, (r.cycle x).faults = r.faults ++ [f] ∧ f.code = 1) ∧
  (∀ (r : Run) (x : StimWord), r.state.undef = true → ((r.cycle x).state.undef = false ↔ decode x = .rst)) ∧
  (∀ (r : Run) (x : StimWord), decode x = .rst →
    AtReset (r.cycle x).state ∧ (r.cycle x).faults = r.faults)

/-! ### Encoding -/

/-- The driver operations expand to their words: one `RST`; nine `LDW` and `H·W` `PIX` in row-major order; 266 in all
(30_encoding.md section 6). -/
def Obligations.DriverOperationsExpandRowMajor : Prop :=
  resetWords = [0x400] ∧
  (∀ m : Kernel, (loadWeightsWords m).length = 9 ∧
    ∀ r c : Fin 3, (loadWeightsWords m)[3 * r.val + c.val]? = some (encode (.ldw (m[r.val])[c.val]))) ∧
  (∀ img : Image, (streamImageWords img).length = 256 ∧
    ∀ i j : Fin 16, (streamImageWords img)[16 * i.val + j.val]? =
      some (encode (.pix (img[i.val])[j.val]))) ∧
  (∀ (m : Kernel) (img : Image), (fullRunWords m img).length = 266)

/-- The grid that `streamImage` returns has the shape `14 × 14` and is filled in row-major order by the samples of its own
cycles: sample `m` of the call stands in cell `[m div 14][m mod 14]`, a cell that no sample reached holds nothing, and
each cycle appends `pixel_out` exactly where a defined next state shows `output_valid = 1` (30_encoding.md section 6). The
empty cell is the model's choice (log 27). That a sample is taken after every cycle of any word, where 43_output_controller.md
speaks of the `PIX` cycles of `streamImage`, and none in UNDEF, is the model's choice (log 25). -/
def Obligations.StreamImageReturnsTheRowMajorGrid : Prop :=
  (∀ (r : Run) (img : Image), (r.streamImage img).1 = r.drive (streamImageWords img) ∧
    ∀ (m : Nat) (_ : m < 196),
      ((r.streamImage img).2[m / 14]'(show m / 14 < 14 by omega))[m % 14]'(show m % 14 < 14 by omega) =
        (r.drive (streamImageWords img)).samples[r.samples.length + m]?) ∧
  (∀ (r : Run) (x : StimWord) (t : State), step (r.state.present x) = .next t →
    (r.cycle x).samples = r.samples ++ if t.undef = false ∧ t.outputValid = true then [t.pixelOut] else [])

/-- Packing the pins into the stimulus word loses nothing and puts each pin at its bit (30_encoding.md section 1; the
packing is the spec's own decision D1, log 17). -/
def Obligations.StimulusWordPacksThePins : Prop :=
  (∀ p : Inputs, Inputs.ofWord p.toWord = p ∧
    p.toWord.toNat = p.reset.toNat * 1024 + p.setWeightsMode.toNat * 512 + p.inputValid.toNat * 256
      + p.pixelIn.toNat) ∧
  (∀ x : StimWord, (Inputs.ofWord x).toWord = x)

/-- Decoding follows the mask and match table: exactly one of the four rows selects a word, it is the row of the
decoded operation, and the operand is the low byte (30_encoding.md section 3; that `set_weights_mode` wins over
`input_valid` is the spec's own decision D3, log 10). -/
def Obligations.DecodeFollowsTheOpcodeTable : Prop :=
  ∀ x : StimWord, opcodeRows.filter (fun r => r.selects x) = [(decode x).row] ∧
    ∀ d : Byte, decode x = .ldw d ∨ decode x = .pix d → d.toNat = x.toNat % 256

/-- Decoding and encoding agree: every well-formed operation is read back from its canonical word with every operand,
and a word names an operation exactly when it has the canonical word's bits where the operation uses them
(30_encoding.md section 3, derived there). That bit 8, `input_valid`, is ignored in an `LDW` is the spec's own decision D3
(log 10). -/
def Obligations.DecodeAndEncodeAgree : Prop :=
  (∀ i : Instr, i.wellFormed = true → decode (encode i) = i) ∧
  (∀ (x : StimWord) (i : Instr), decode x = i ↔ x &&& usedBits i = encode i)

/-- A few words of the spec's examples decode as written there (95_test_vectors.md section 2; `0x122` from
42_stream_convolve.md, PIX). That `0x309`, with both controls asserted, is `LDW 9` is the spec's own decision D3
(log 10). -/
def Obligations.ExampleWordsDecode : Prop :=
  decode 0x400 = .rst ∧ decode 0x7FF = .rst ∧ decode 0x207 = .ldw 7 ∧ decode 0x309 = .ldw 9 ∧
    decode 0x122 = .pix 34 ∧ decode 0x000 = .nop ∧ decode 0x0AB = .nop

/-- A number is a stimulus word exactly when it has 11 bits; every other number is rejected by name
(30_encoding.md section 1; log 17). -/
def Obligations.OnlyElevenBitNumbersDecode : Prop :=
  ∀ w : Nat, (w < 2048 → decodeNat w = .ok (decode (BitVec.ofNat 11 w))) ∧
    (2048 ≤ w → decodeNat w = .error .notAStimulusWord)

/-- The assembler writes canonical words only: a line with its operand in range, and only such a line, assembles to as
many copies as it says of its operation's word; a program of one line is that line, and a whole program assembles to its
lines' words one after another, only if each line does; an operand above 255 is rejected (30_encoding.md section 5, the
spec's own decision D4; that a line of zero copies gives no word is the model's choice, log 18). -/
def Obligations.AssemblerWritesCanonicalWords : Prop :=
  (∀ (l : Line) (ws : List StimWord), l.assemble = .ok ws →
    ∃ i, l.op.instr = .ok i ∧ ws = List.replicate l.times (encode i) ∧ decode (encode i) = i) ∧
  (∀ times : Nat, (Line.mk .rst times).assemble = .ok (List.replicate times (encode .rst)) ∧
    (Line.mk .nop times).assemble = .ok (List.replicate times (encode .nop)) ∧
    ∀ d : Byte, (Line.mk (.ldw d.toNat) times).assemble = .ok (List.replicate times (encode (.ldw d))) ∧
      (Line.mk (.pix d.toNat) times).assemble = .ok (List.replicate times (encode (.pix d)))) ∧
  (∀ k times : Nat, 256 ≤ k → (Line.mk (.ldw k) times).assemble = .error .operandOutOfRange ∧
    (Line.mk (.pix k) times).assemble = .error .operandOutOfRange) ∧
  assemble [] = .ok [] ∧ (∀ l : Line, assemble [l] = l.assemble) ∧
  (∀ (ls ls' : List Line) (ws ws' : List StimWord), assemble ls = .ok ws → assemble ls' = .ok ws' →
    assemble (ls ++ ls') = .ok (ws ++ ws')) ∧
  (∀ (ls : List Line) (ws : List StimWord), assemble ls = .ok ws → ∀ l ∈ ls, ∃ wl, l.assemble = .ok wl)

/-! ### What the harness reads -/

/-- The harness reads nothing of an UNDEF state: no pins, no sample, no registers, and the check of `loadWeights` has no
answer. In a defined state it reads the two pins, the weights and the cursor as they are, and the check says whether every
`w[3·r + c]` is the matrix entry (10_state.md section 2 and its rule on visibility, 30_encoding.md section 6). UNDEF is the
spec's own decision D9 (log 4), that a read of it answers nothing is the model's choice (log 28), when a sample is taken
too (log 25). -/
def Obligations.HarnessReadsDefinedStatesOnly : Prop :=
  (∀ (s : State) (m : Kernel), s.undef = true →
    s.outputs = none ∧ s.sample = none ∧ s.visible = none ∧ weightsEqual m s = none) ∧
  (∀ (s : State) (m : Kernel), s.undef = false →
    s.outputs = some ⟨s.outputValid, s.pixelOut⟩ ∧ s.visible = some (s.w, s.wptr) ∧
      s.sample = (if s.outputValid = true then some s.pixelOut else none) ∧
      ∃ b, weightsEqual m s = some b ∧
        (b = true ↔ ∀ r c : Fin 3, readWeight s.w (weightIndex r c) = (m[r.val])[c.val])) ∧
  (∀ (r : Run) (m : Kernel), r.loadWeights m =
    (r.drive (loadWeightsWords m), weightsEqual m (r.drive (loadWeightsWords m)).state))
end

