-- ==== Sys2Proof/Laws/Memory.lean ====
section
/-! SUPPORT. The line buffer: read after write, and the canonical form is kept by every operation. -/

namespace Sys2Proof.Machine

@[simp] theorem Memory.readAt_nil (a : Nat) : Memory.readAt [] a = 0 := rfl

@[simp] theorem Memory.read_nil (a : Slot) : Memory.read [] a = 0 := rfl

@[simp] theorem Memory.wf_nil : Memory.wf [] = true := rfl

theorem Memory.wfFrom_cons (lo b : Nat) (x : Byte) (m : Memory) :
    Memory.wfFrom lo ((b, x) :: m) = true ↔
      lo ≤ b ∧ b < Config.C ∧ x ≠ 0 ∧ Memory.wfFrom (b + 1) m = true := by
  simp [Memory.wfFrom, Memory.unlisted, and_assoc]

theorem Memory.wfFrom_weaken {lo lo' : Nat} {m : Memory} (h : lo' ≤ lo) (hm : Memory.wfFrom lo m = true) :
    Memory.wfFrom lo' m = true := by
  cases m with
  | nil => rfl
  | cons e m =>
    rw [Memory.wfFrom_cons] at hm ⊢
    exact ⟨h.trans hm.1, hm.2⟩

/-- An address below every entry reads as an unlisted one. -/
theorem Memory.readAt_below {lo a : Nat} {m : Memory} (h : a < lo) (hm : Memory.wfFrom lo m = true) :
    Memory.readAt m a = 0 := by
  induction m generalizing lo with
  | nil => rfl
  | cons e m ih =>
    rw [Memory.wfFrom_cons] at hm
    have hne : e.1 ≠ a := by omega
    simp only [Memory.readAt, hne, if_false]
    exact ih (by omega) hm.2.2.2

theorem Memory.wfFrom_entry {lo a : Nat} {v : Byte} {m : Memory} (hlo : lo ≤ a) (ha : a < Config.C)
    (hm : Memory.wfFrom (a + 1) m = true) : Memory.wfFrom lo (Memory.entry a v m) = true := by
  unfold Memory.entry
  split
  · exact Memory.wfFrom_weaken (by omega) hm
  · next h => exact (Memory.wfFrom_cons ..).2 ⟨hlo, ha, h, hm⟩

theorem Memory.wfFrom_writeAt {lo a : Nat} {m : Memory} (v : Byte) (hlo : lo ≤ a) (ha : a < Config.C)
    (hm : Memory.wfFrom lo m = true) : Memory.wfFrom lo (Memory.writeAt m a v) = true := by
  induction m generalizing lo with
  | nil => exact Memory.wfFrom_entry hlo ha rfl
  | cons e m ih =>
    rw [Memory.wfFrom_cons] at hm
    simp only [Memory.writeAt]
    split
    · exact Memory.wfFrom_entry hlo ha ((Memory.wfFrom_cons ..).2 ⟨by omega, hm.2⟩)
    · split
      · next h => exact Memory.wfFrom_entry hlo ha (h ▸ hm.2.2.2)
      · exact (Memory.wfFrom_cons ..).2 ⟨hm.1, hm.2.1, hm.2.2.1, ih (by omega) hm.2.2.2⟩

theorem Memory.readAt_entry_other {a b : Nat} (v : Byte) (m : Memory) (h : a ≠ b) :
    Memory.readAt (Memory.entry a v m) b = Memory.readAt m b := by
  unfold Memory.entry
  split <;> simp [Memory.readAt, h]

/-- A write leaves every other address alone. -/
theorem Memory.readAt_writeAt_other {a b : Nat} (m : Memory) (v : Byte) (h : a ≠ b) :
    Memory.readAt (Memory.writeAt m a v) b = Memory.readAt m b := by
  induction m with
  | nil => exact Memory.readAt_entry_other v [] h
  | cons e m ih =>
    simp only [Memory.writeAt]
    split
    · exact Memory.readAt_entry_other v _ h
    · split
      · next he => rw [Memory.readAt_entry_other v m h]; simp [Memory.readAt, ← he, h]
      · simp [Memory.readAt, ih]

theorem Memory.readAt_entry_same {a : Nat} (v : Byte) {m : Memory} (hm : Memory.wfFrom (a + 1) m = true) :
    Memory.readAt (Memory.entry a v m) a = v := by
  unfold Memory.entry
  split
  · next h => rw [Memory.readAt_below (by omega) hm, h]; rfl
  · simp [Memory.readAt]

/-- A read of the address just written gives the byte written. -/
theorem Memory.readAt_writeAt_same {lo a : Nat} {m : Memory} (v : Byte) (hm : Memory.wfFrom lo m = true) :
    Memory.readAt (Memory.writeAt m a v) a = v := by
  induction m generalizing lo with
  | nil => exact Memory.readAt_entry_same v rfl
  | cons e m ih =>
    have hm' := (Memory.wfFrom_cons ..).1 hm
    simp only [Memory.writeAt]
    split
    · exact Memory.readAt_entry_same v ((Memory.wfFrom_cons ..).2 ⟨by omega, hm'.2⟩)
    · split
      · next h => exact Memory.readAt_entry_same v (h ▸ hm'.2.2.2)
      · next h => simp only [Memory.readAt, Ne.symm h, if_false]; exact ih hm'.2.2.2

/-- What a slot write does, whole: the form is kept, the slot reads as written, every other slot as before. -/
theorem Memory.write_spec {m : Memory} (a : Slot) (v : Byte) (hm : m.wf = true) :
    (Memory.write m a v).wf = true ∧
      ∀ b : Slot, Memory.read (Memory.write m a v) b = if b = a then v else Memory.read m b := by
  refine ⟨Memory.wfFrom_writeAt v (Nat.zero_le _) a.isLt hm, fun b => ?_⟩
  split
  · next h => subst h; exact Memory.readAt_writeAt_same v hm
  · next h => exact Memory.readAt_writeAt_other m v fun he => h (Fin.ext he.symm)

theorem Memory.write_wf {m : Memory} (a : Slot) (v : Byte) (hm : m.wf = true) : (Memory.write m a v).wf = true :=
  (Memory.write_spec a v hm).1

theorem Memory.read_write {m : Memory} (a b : Slot) (v : Byte) (hm : m.wf = true) :
    Memory.read (Memory.write m a v) b = if b = a then v else Memory.read m b :=
  (Memory.write_spec a v hm).2 b

/-- A line buffer given slot by slot has the canonical form. -/
theorem Memory.ofSlots_wf (f : Slot → Byte) : (Memory.ofSlots f).wf = true := by
  suffices h : ∀ (as : List Slot) (m : Memory), m.wf = true →
      (as.foldl (fun m a => Memory.write m a (f a)) m).wf = true by
    unfold Memory.ofSlots; exact h _ _ rfl
  intro as
  induction as with
  | nil => exact fun m hm => hm
  | cons a as ih => exact fun m hm => ih _ (Memory.write_wf a _ hm)

/-- The line buffer after reset has the canonical form. -/
theorem State.reset_lb_wf : State.reset.lb.wf = true := rfl

end Sys2Proof.Machine
end

