-- ==== Sys2Proof/Laws/State.lean ====
section
/-! SUPPORT. What each update of the state does to each field. -/

namespace Sys2Proof.Machine

@[simp] theorem State.noResult_undef (s : State) : (s.noResult).undef = s.undef := rfl
@[simp] theorem State.noResult_w (s : State) : (s.noResult).w = s.w := rfl
@[simp] theorem State.noResult_wcnt (s : State) : (s.noResult).wcnt = s.wcnt := rfl
@[simp] theorem State.noResult_n (s : State) : (s.noResult).n = s.n := rfl
@[simp] theorem State.noResult_wptr (s : State) : (s.noResult).wptr = s.wptr := rfl
@[simp] theorem State.noResult_outputValid (s : State) : (s.noResult).outputValid = false := rfl
@[simp] theorem State.noResult_pixelOut (s : State) : (s.noResult).pixelOut = Config.unspec8 s.draws := rfl
@[simp] theorem State.noResult_lb (s : State) : (s.noResult).lb = s.lb := rfl
@[simp] theorem State.noResult_draws (s : State) : (s.noResult).draws = s.draws + 1 := rfl
@[simp] theorem State.noResult_stimulus (s : State) : (s.noResult).stimulus = s.stimulus := rfl
@[simp] theorem State.noResult_cycle (s : State) : (s.noResult).cycle = s.cycle := rfl

@[simp] theorem State.emit_undef (s : State) (v : Byte) : (s.emit v).undef = s.undef := rfl
@[simp] theorem State.emit_w (s : State) (v : Byte) : (s.emit v).w = s.w := rfl
@[simp] theorem State.emit_wcnt (s : State) (v : Byte) : (s.emit v).wcnt = s.wcnt := rfl
@[simp] theorem State.emit_n (s : State) (v : Byte) : (s.emit v).n = s.n := rfl
@[simp] theorem State.emit_wptr (s : State) (v : Byte) : (s.emit v).wptr = s.wptr := rfl
@[simp] theorem State.emit_outputValid (s : State) (v : Byte) : (s.emit v).outputValid = true := rfl
@[simp] theorem State.emit_pixelOut (s : State) (v : Byte) : (s.emit v).pixelOut = v := rfl
@[simp] theorem State.emit_lb (s : State) (v : Byte) : (s.emit v).lb = s.lb := rfl
@[simp] theorem State.emit_draws (s : State) (v : Byte) : (s.emit v).draws = s.draws := rfl
@[simp] theorem State.emit_stimulus (s : State) (v : Byte) : (s.emit v).stimulus = s.stimulus := rfl
@[simp] theorem State.emit_cycle (s : State) (v : Byte) : (s.emit v).cycle = s.cycle := rfl

@[simp] theorem State.loadWeight_undef (s : State) (d : Byte) : (s.loadWeight d).undef = s.undef := rfl
@[simp] theorem State.loadWeight_w (s : State) (d : Byte) : (s.loadWeight d).w = writeWeight s.w s.wcnt d := rfl
@[simp] theorem State.loadWeight_wcnt (s : State) (d : Byte) : (s.loadWeight d).wcnt = countUp s.wcnt := rfl
@[simp] theorem State.loadWeight_n (s : State) (d : Byte) : (s.loadWeight d).n = s.n := rfl
@[simp] theorem State.loadWeight_wptr (s : State) (d : Byte) : (s.loadWeight d).wptr = s.wptr := rfl
@[simp] theorem State.loadWeight_outputValid (s : State) (d : Byte) : (s.loadWeight d).outputValid = s.outputValid := rfl
@[simp] theorem State.loadWeight_pixelOut (s : State) (d : Byte) : (s.loadWeight d).pixelOut = s.pixelOut := rfl
@[simp] theorem State.loadWeight_lb (s : State) (d : Byte) : (s.loadWeight d).lb = s.lb := rfl
@[simp] theorem State.loadWeight_draws (s : State) (d : Byte) : (s.loadWeight d).draws = s.draws := rfl
@[simp] theorem State.loadWeight_stimulus (s : State) (d : Byte) : (s.loadWeight d).stimulus = s.stimulus := rfl
@[simp] theorem State.loadWeight_cycle (s : State) (d : Byte) : (s.loadWeight d).cycle = s.cycle := rfl

@[simp] theorem State.acceptPixel_undef (s : State) (d : Byte) : (s.acceptPixel d).undef = s.undef := rfl
@[simp] theorem State.acceptPixel_w (s : State) (d : Byte) : (s.acceptPixel d).w = s.w := rfl
@[simp] theorem State.acceptPixel_wcnt (s : State) (d : Byte) : (s.acceptPixel d).wcnt = s.wcnt := rfl
@[simp] theorem State.acceptPixel_n (s : State) (d : Byte) : (s.acceptPixel d).n = countUp s.n := rfl
@[simp] theorem State.acceptPixel_wptr (s : State) (d : Byte) : (s.acceptPixel d).wptr = Slot.next s.wptr := rfl
@[simp] theorem State.acceptPixel_outputValid (s : State) (d : Byte) : (s.acceptPixel d).outputValid = s.outputValid := rfl
@[simp] theorem State.acceptPixel_pixelOut (s : State) (d : Byte) : (s.acceptPixel d).pixelOut = s.pixelOut := rfl
@[simp] theorem State.acceptPixel_lb (s : State) (d : Byte) : (s.acceptPixel d).lb = Memory.write s.lb s.wptr d := rfl
@[simp] theorem State.acceptPixel_draws (s : State) (d : Byte) : (s.acceptPixel d).draws = s.draws := rfl
@[simp] theorem State.acceptPixel_stimulus (s : State) (d : Byte) : (s.acceptPixel d).stimulus = s.stimulus := rfl
@[simp] theorem State.acceptPixel_cycle (s : State) (d : Byte) : (s.acceptPixel d).cycle = s.cycle := rfl

@[simp] theorem State.clear_undef (s : State) : (s.clear).undef = false := rfl
@[simp] theorem State.clear_w (s : State) : (s.clear).w = Vector.replicate Config.NW 0 := rfl
@[simp] theorem State.clear_wcnt (s : State) : (s.clear).wcnt = 0 := rfl
@[simp] theorem State.clear_n (s : State) : (s.clear).n = 0 := rfl
@[simp] theorem State.clear_wptr (s : State) : (s.clear).wptr = 0 := rfl
@[simp] theorem State.clear_outputValid (s : State) : (s.clear).outputValid = false := rfl
@[simp] theorem State.clear_pixelOut (s : State) : (s.clear).pixelOut = Config.unspec8 s.draws := rfl
@[simp] theorem State.clear_lb (s : State) : (s.clear).lb = [] := rfl
@[simp] theorem State.clear_draws (s : State) : (s.clear).draws = s.draws + 1 := rfl
@[simp] theorem State.clear_stimulus (s : State) : (s.clear).stimulus = s.stimulus := rfl
@[simp] theorem State.clear_cycle (s : State) : (s.clear).cycle = s.cycle := rfl

@[simp] theorem State.enterUndef_undef (s : State) : (s.enterUndef).undef = true := rfl
@[simp] theorem State.enterUndef_w (s : State) : (s.enterUndef).w = Config.undefWeights s.draws := rfl
@[simp] theorem State.enterUndef_wcnt (s : State) : (s.enterUndef).wcnt = Config.undefWcnt s.draws := rfl
@[simp] theorem State.enterUndef_n (s : State) : (s.enterUndef).n = Config.undefN s.draws := rfl
@[simp] theorem State.enterUndef_wptr (s : State) : (s.enterUndef).wptr = Config.undefWptr s.draws := rfl
@[simp] theorem State.enterUndef_outputValid (s : State) : (s.enterUndef).outputValid = Config.undefValid s.draws := rfl
@[simp] theorem State.enterUndef_pixelOut (s : State) : (s.enterUndef).pixelOut = Config.unspec8 s.draws := rfl
@[simp] theorem State.enterUndef_lb (s : State) : (s.enterUndef).lb = Memory.ofSlots (Config.undefSlot s.draws) := rfl
@[simp] theorem State.enterUndef_draws (s : State) : (s.enterUndef).draws = s.draws + 1 := rfl
@[simp] theorem State.enterUndef_stimulus (s : State) : (s.enterUndef).stimulus = s.stimulus := rfl
@[simp] theorem State.enterUndef_cycle (s : State) : (s.enterUndef).cycle = s.cycle := rfl

@[simp] theorem State.endCycle_undef (s : State) : (s.endCycle).undef = s.undef := rfl
@[simp] theorem State.endCycle_w (s : State) : (s.endCycle).w = s.w := rfl
@[simp] theorem State.endCycle_wcnt (s : State) : (s.endCycle).wcnt = s.wcnt := rfl
@[simp] theorem State.endCycle_n (s : State) : (s.endCycle).n = s.n := rfl
@[simp] theorem State.endCycle_wptr (s : State) : (s.endCycle).wptr = s.wptr := rfl
@[simp] theorem State.endCycle_outputValid (s : State) : (s.endCycle).outputValid = s.outputValid := rfl
@[simp] theorem State.endCycle_pixelOut (s : State) : (s.endCycle).pixelOut = s.pixelOut := rfl
@[simp] theorem State.endCycle_lb (s : State) : (s.endCycle).lb = s.lb := rfl
@[simp] theorem State.endCycle_draws (s : State) : (s.endCycle).draws = s.draws := rfl
@[simp] theorem State.endCycle_stimulus (s : State) : (s.endCycle).stimulus = s.stimulus.tail := rfl
@[simp] theorem State.endCycle_cycle (s : State) : (s.endCycle).cycle = s.cycle + 1 := rfl

@[simp] theorem State.present_undef (s : State) (x : StimWord) : (s.present x).undef = s.undef := rfl
@[simp] theorem State.present_w (s : State) (x : StimWord) : (s.present x).w = s.w := rfl
@[simp] theorem State.present_wcnt (s : State) (x : StimWord) : (s.present x).wcnt = s.wcnt := rfl
@[simp] theorem State.present_n (s : State) (x : StimWord) : (s.present x).n = s.n := rfl
@[simp] theorem State.present_wptr (s : State) (x : StimWord) : (s.present x).wptr = s.wptr := rfl
@[simp] theorem State.present_outputValid (s : State) (x : StimWord) : (s.present x).outputValid = s.outputValid := rfl
@[simp] theorem State.present_pixelOut (s : State) (x : StimWord) : (s.present x).pixelOut = s.pixelOut := rfl
@[simp] theorem State.present_lb (s : State) (x : StimWord) : (s.present x).lb = s.lb := rfl
@[simp] theorem State.present_draws (s : State) (x : StimWord) : (s.present x).draws = s.draws := rfl
@[simp] theorem State.present_stimulus (s : State) (x : StimWord) : (s.present x).stimulus = x :: s.stimulus.tail := rfl
@[simp] theorem State.present_cycle (s : State) (x : StimWord) : (s.present x).cycle = s.cycle := rfl

end Sys2Proof.Machine
end

