-- ==== Sys2Proof/Laws/Ops.lean ====
section
/-! SUPPORT. What the shared operations do: one lemma per operation. -/

namespace Sys2Proof.Machine

theorem capacity_eq : Config.C = 35 := rfl
theorem weights_eq : Config.NW = 9 := rfl
theorem frame_eq : Config.NPIX = 256 := rfl

theorem countUp_val {k : Nat} {x : Fin (k + 1)} (h : x.val < k) : (countUp x).val = x.val + 1 := by
  simp only [countUp]; omega

@[simp] theorem Slot.next_val (a : Slot) : (Slot.next a).val = (a.val + 1) % 35 := rfl

/-- The slot `k` places back is the residue of the integer difference (00_scope.md R13). -/
theorem Slot.back_val (a : Slot) (k : Nat) : ((Slot.back a k).val : Int) = ((a.val : Int) - k) % 35 := by
  have ha := a.isLt
  simp only [Slot.back, capacity_eq] at *
  omega

/-- What a weight write does, whole. -/
theorem readWeight_writeWeight (w : Weights) (k : WeightCount) (d : Byte) (i : WeightIndex) :
    readWeight (writeWeight w k d) i = if i.val = k.val then d else readWeight w i := by
  simp only [readWeight, writeWeight, Vector.getElem_setIfInBounds]
  split <;> split <;> first | rfl | omega

@[simp] theorem readWeight_zero (i : WeightIndex) : readWeight (Vector.replicate Config.NW 0) i = 0 := by
  simp [readWeight]

theorem completesWindow_iff (p : Nat) :
    completesWindow p = true ↔ 2 ≤ p / 16 ∧ 2 ≤ p % 16 := by
  simp only [completesWindow, Bool.and_eq_true, decide_eq_true_eq]
  simp only [row, col]

/-- Two line buffers that agree on every slot give the same window. -/
theorem acc_congr {lb lb' : Memory} (w : Weights) (a : Slot) (h : ∀ b, Memory.read lb b = Memory.read lb' b) :
    acc lb w a = acc lb' w a := by
  simp only [acc, window, h]

/-- A raised violation never gives a next state. -/
theorem raise_ne_next (why : Nat → Option StimWord → Fault) (s t : State) : raise why s ≠ .next t := nofun

/-! ### What the harness sees -/

@[simp] theorem State.outputs_undef {s : State} (h : s.undef = true) : s.outputs = none := by simp [State.outputs, h]

theorem State.outputs_defined {s : State} (h : s.undef = false) : s.outputs = some ⟨s.outputValid, s.pixelOut⟩ := by
  simp [State.outputs, h]

@[simp] theorem State.visible_undef {s : State} (h : s.undef = true) : s.visible = none := by simp [State.visible, h]

theorem State.visible_defined {s : State} (h : s.undef = false) : s.visible = some (s.w, s.wptr) := by
  simp [State.visible, h]

@[simp] theorem State.sample_undef {s : State} (h : s.undef = true) : s.sample = none := by simp [State.sample, h]

theorem State.sample_defined {s : State} (h : s.undef = false) :
    s.sample = if s.outputValid then some s.pixelOut else none := by
  simp [State.sample, h]

end Sys2Proof.Machine
end

