-- ==== Sys2Proof/Laws/Exec.lean ====
section
/-! SUPPORT. What each operation and the step can do when they answer a next state. -/

namespace Sys2Proof.Machine

theorem execRst_next {s t : State} : execRst s = .next t ↔ t = s.clear := by
  simp [execRst, eq_comm]

theorem execNop_next {s t : State} :
    execNop s = .next t ↔ (s.undef = true ∧ t = s.enterUndef) ∨ (s.undef = false ∧ t = s.noResult) := by
  unfold execNop
  cases s.undef <;> simp [eq_comm]

theorem execLdw_eq (d : Byte) (s : State) :
    execLdw d s =
      if s.undef then raise .notReset s
      else if s.wcnt.val < 9 then .next (s.loadWeight d).noResult
      else if s.n.val = 0 then raise .weightOverrun s
      else raise .weightWriteInStream s := rfl

theorem execPix_eq (d : Byte) (s : State) :
    execPix d s =
      if s.undef then raise .notReset s
      else if s.wcnt.val < 9 then raise .streamBeforeWeights s
      else if s.n.val < 256 then .next (pixelOutputs s (s.acceptPixel d))
      else raise .frameOverrun s := rfl

theorem execLdw_next {d : Byte} {s t : State} :
    execLdw d s = .next t ↔ s.undef = false ∧ s.wcnt.val < 9 ∧ t = (s.loadWeight d).noResult := by
  rw [execLdw_eq]
  split <;> rename_i hu
  · simp [hu, raise]
  · split <;> rename_i hw
    · simp [hu, hw, eq_comm]
    · split <;> simp [hw, raise]

theorem execPix_next {d : Byte} {s t : State} :
    execPix d s = .next t ↔
      s.undef = false ∧ s.wcnt.val = 9 ∧ s.n.val < 256 ∧ t = pixelOutputs s (s.acceptPixel d) := by
  have hb : s.wcnt.val < 10 := s.wcnt.isLt
  rw [execPix_eq]
  split <;> rename_i hu
  · simp [hu, raise]
  · split <;> rename_i hw
    · simp [raise]; omega
    · split <;> rename_i hn
      · simp [hu, hn, eq_comm]; omega
      · simp [hn, raise]

/-- The violations of `LDW` by their conditions (41_weight_load.md R54). -/
theorem execLdw_fault {d : Byte} {s : State} {f : Fault} :
    execLdw d s = .fault f ↔
      (s.undef = true ∧ f = .notReset s.cycle s.stimulus.head?) ∨
      (s.undef = false ∧ s.wcnt.val = 9 ∧ s.n.val = 0 ∧ f = .weightOverrun s.cycle s.stimulus.head?) ∨
      (s.undef = false ∧ s.wcnt.val = 9 ∧ s.n.val ≠ 0 ∧ f = .weightWriteInStream s.cycle s.stimulus.head?) := by
  have hb : s.wcnt.val < 10 := s.wcnt.isLt
  rw [execLdw_eq]
  split <;> rename_i hu
  · simp [hu, raise, eq_comm]
  · split <;> rename_i hw
    · simp [hu]; omega
    · have : s.wcnt.val = 9 := by omega
      split <;> rename_i hn <;> simp [hu, this, hn, raise, eq_comm]

/-- The violations of `PIX` by their conditions (42_stream_convolve.md R58). -/
theorem execPix_fault {d : Byte} {s : State} {f : Fault} :
    execPix d s = .fault f ↔
      (s.undef = true ∧ f = .notReset s.cycle s.stimulus.head?) ∨
      (s.undef = false ∧ s.wcnt.val < 9 ∧ f = .streamBeforeWeights s.cycle s.stimulus.head?) ∨
      (s.undef = false ∧ s.wcnt.val = 9 ∧ s.n.val = 256 ∧ f = .frameOverrun s.cycle s.stimulus.head?) := by
  have hb : s.wcnt.val < 10 := s.wcnt.isLt
  have hn : s.n.val < 257 := s.n.isLt
  rw [execPix_eq]
  split <;> rename_i hu
  · simp [hu, raise, eq_comm]
  · split <;> rename_i hw
    · have : s.wcnt.val ≠ 9 := by omega
      simp [hu, hw, this, raise, eq_comm]
    · split <;> rename_i hc
      · simp [hu, hw]; omega
      · have h1 : s.wcnt.val = 9 := by omega
        have h2 : s.n.val = 256 := by omega
        simp [hu, h1, h2, raise, eq_comm]

/-- No operation is refused. -/
theorem exec_ne_refused (i : Instr) (s : State) (r : Refusal) : exec i s ≠ .refused r := by
  cases i with
  | rst => simp [exec, execRst]
  | ldw d => simp only [exec, execLdw]; repeat' split
             all_goals simp [raise]
  | pix d => simp only [exec, execPix]; repeat' split
             all_goals simp [raise]
  | nop => simp only [exec, execNop]; split <;> simp

@[simp] theorem pixelOutputs_undef (s t : State) : (pixelOutputs s t).undef = t.undef := by
  unfold pixelOutputs; split <;> rfl

@[simp] theorem pixelOutputs_w (s t : State) : (pixelOutputs s t).w = t.w := by
  unfold pixelOutputs; split <;> rfl

@[simp] theorem pixelOutputs_wcnt (s t : State) : (pixelOutputs s t).wcnt = t.wcnt := by
  unfold pixelOutputs; split <;> rfl

@[simp] theorem pixelOutputs_n (s t : State) : (pixelOutputs s t).n = t.n := by
  unfold pixelOutputs; split <;> rfl

@[simp] theorem pixelOutputs_wptr (s t : State) : (pixelOutputs s t).wptr = t.wptr := by
  unfold pixelOutputs; split <;> rfl

@[simp] theorem pixelOutputs_lb (s t : State) : (pixelOutputs s t).lb = t.lb := by
  unfold pixelOutputs; split <;> rfl

@[simp] theorem pixelOutputs_stimulus (s t : State) : (pixelOutputs s t).stimulus = t.stimulus := by
  unfold pixelOutputs; split <;> rfl

@[simp] theorem pixelOutputs_cycle (s t : State) : (pixelOutputs s t).cycle = t.cycle := by
  unfold pixelOutputs; split <;> rfl

@[simp] theorem pixelOutputs_outputValid (s t : State) :
    (pixelOutputs s t).outputValid = completesWindow s.n.val := by
  unfold pixelOutputs; split <;> simp_all

theorem pixelOutputs_pixelOut {s : State} (t : State) (h : completesWindow s.n.val = true) :
    (pixelOutputs s t).pixelOut = narrow8 (acc t.lb t.w s.wptr) := by
  unfold pixelOutputs; rw [if_pos h]; rfl

/-- A step that answers a next state performs the operation of the word presented. -/
theorem step_next {s t : State} :
    step s = .next t ↔ ∃ x, s.stimulus.head? = some x ∧ ∃ u, exec (decode x) s = .next u ∧ t = u.endCycle := by
  unfold step State.fetch
  cases s.stimulus.head? with
  | none => simp
  | some x => cases h : exec (decode x) s <;> simp [finishCycle, h, eq_comm]

end Sys2Proof.Machine
end

