-- ==== Sys2Proof/Laws/Harness.lean ====
section
/-! SUPPORT. One cycle of a run and the words of a run. -/

namespace Sys2Proof.Machine

/-- A cycle whose operation answers a next state: the sample of that state is taken. -/
theorem Run.cycle_next {r : Run} {x : StimWord} {t : State} (h : exec (decode x) (r.state.present x) = .next t) :
    r.cycle x = ⟨t.endCycle, r.samples ++ t.sample.toList, r.faults⟩ := by
  have hs : step (r.state.present x) = .next t.endCycle := step_next.2 ⟨x, rfl, t, h, rfl⟩
  unfold Run.cycle
  rw [hs]
  rfl

/-- A cycle whose operation is a violation: UNDEF, and the violation is recorded. -/
theorem Run.cycle_fault {r : Run} {x : StimWord} {f : Fault} (h : exec (decode x) (r.state.present x) = .fault f) :
    r.cycle x = ⟨(r.state.present x).afterViolation, r.samples, r.faults ++ [f]⟩ := by
  have hs : step (r.state.present x) = .fault f := by
    show finishCycle (exec (decode x) (r.state.present x)) = _
    rw [h]; rfl
  unfold Run.cycle
  rw [hs]

@[simp] theorem Run.drive_nil (r : Run) : r.drive [] = r := rfl

@[simp] theorem Run.drive_cons (r : Run) (x : StimWord) (ws : List StimWord) :
    r.drive (x :: ws) = (r.cycle x).drive ws := rfl

theorem Run.drive_append (r : Run) (ws ws' : List StimWord) : r.drive (ws ++ ws') = (r.drive ws).drive ws' := by
  simp [Run.drive]

@[simp] theorem Kernel.rowMajor_length (m : Kernel) : (Kernel.rowMajor m).length = 9 := by
  unfold Kernel.rowMajor
  rw [List.length_flatMap]
  simp; rfl

@[simp] theorem Image.rowMajor_length (img : Image) : (Image.rowMajor img).length = 256 := by
  unfold Image.rowMajor
  rw [List.length_flatMap]
  simp; rfl

/-- The check of the weights has no answer in UNDEF. -/
@[simp] theorem weightsEqual_undef {s : State} (m : Kernel) (h : s.undef = true) : weightsEqual m s = none := by
  simp [weightsEqual, State.visible_undef h]

/-- The check of the weights in a defined state compares them with the matrix. -/
theorem weightsEqual_defined {s : State} (m : Kernel) (h : s.undef = false) :
    weightsEqual m s = some (s.w.toList == Kernel.rowMajor m) := by
  simp [weightsEqual, State.visible_defined h]

/-- The cell of the result grid at `(y, x)` is the sample of that row-major number. -/
theorem outputGrid_get (samples : List Byte) {y x : Nat} (hy : y < Config.OH) (hx : x < Config.OW) :
    ((outputGrid samples)[y])[x] = samples[y * 14 + x]? := by
  simp only [outputGrid, Vector.getElem_ofFn]; rfl

/-- The same, for a position within the shape. -/
theorem gridSample_eq (samples : List Byte) (y : Fin Config.OH) (x : Fin Config.OW) :
    gridSample samples y x = samples[y.val * 14 + x.val]? :=
  outputGrid_get samples y.isLt x.isLt

/-- What `streamImage` gives: the run over its words, and the grid of the samples it added. -/
theorem Run.streamImage_eq (r : Run) (img : Image) : r.streamImage img =
    (r.drive (streamImageWords img), outputGrid ((r.drive (streamImageWords img)).samples.drop r.samples.length)) := rfl

end Sys2Proof.Machine
end

