-- ==== Sys2Proof/Laws/PerInstr.lean ====
section
/-! SUPPORT. Statements about every operation, one lemma per constructor. -/

namespace Sys2Proof.Laws

/-- The canonical word of an operation is selected by the operation's own row of the opcode table
(30_encoding.md R42, R43). -/
def EncodeSelectsItsRow.Statement (i : Instr) : Prop := i.row.selects (encode i) = true

theorem EncodeSelectsItsRow.rst : EncodeSelectsItsRow.Statement .rst := by
  unfold EncodeSelectsItsRow.Statement; decide

theorem EncodeSelectsItsRow.ldw (d : Byte) : EncodeSelectsItsRow.Statement (.ldw d) := by
  unfold EncodeSelectsItsRow.Statement; revert d; decide

theorem EncodeSelectsItsRow.pix (d : Byte) : EncodeSelectsItsRow.Statement (.pix d) := by
  unfold EncodeSelectsItsRow.Statement; revert d; decide

theorem EncodeSelectsItsRow.nop : EncodeSelectsItsRow.Statement .nop := by
  unfold EncodeSelectsItsRow.Statement; decide

end Sys2Proof.Laws
end

