-- ==== Sys2Proof/Tests/Slice0.lean ====
section
/-! SUPPORT. Tests: ill-formed terms, words written out bit by bit from the spec's encodings, single steps of the
spec's examples, and for every statement with hypotheses a state that meets them. -/

namespace Sys2Proof.Tests

open Sys2Proof Sys2Proof.Machine Sys2Proof.Safety

/-- A field of the next state, where there is one. -/
def after {α : Type} (r : Result) (f : State → α) : Option α :=
  match r with
  | .next t => some (f t)
  | .fault _ => none
  | .refused _ => none

/-- The code of the violation, where there is one. -/
def code (r : Result) : Option Nat :=
  match r with
  | .next _ => none
  | .fault f => some f.code
  | .refused _ => none

/-- The reset state with all weights loaded as given and `k` pixels accepted. -/
def streaming (w : Weights) (k : PixelCount) (lb : Memory) : State :=
  { State.reset with w := w, wcnt := 9, n := k, wptr := ⟨k.val % 35, Nat.mod_lt _ (by decide)⟩, lb := lb }

/-- The weights of a kernel with a single 1. -/
def single (i : WeightCount) : Weights := writeWeight (Vector.replicate 9 0) i 1

/-- The line buffer after the first 34 pixels of the ramp image, each pixel its own linear index. -/
def rampBuffer : Memory := (List.range 33).map fun k => (k + 1, BitVec.ofNat 8 (k + 1))

/-! ### Ill-formed terms -/

theorem test_operand_256_refused : operandOfNat? 256 = none := by decide
theorem test_operand_255_accepted : operandOfNat? 255 = some 255 := by decide
theorem test_word_2048_refused : stimWordOfNat? 2048 = none := by decide
theorem test_word_2047_accepted : stimWordOfNat? 2047 = some 0x7FF := by decide
theorem test_line_operand_256_refused :
    (match (Line.mk (.ldw 256) 1).assemble with | .error e => some e | .ok _ => none) =
      some .operandOutOfRange := by decide
theorem test_every_operation_well_formed :
    Instr.wellFormed .rst ∧ Instr.wellFormed (.ldw 255) ∧ Instr.wellFormed (.pix 255) ∧ Instr.wellFormed .nop := by
  decide

/-! ### Decoding: words written out from 30_encoding.md R40, R42 -/

theorem test_decode_rst : decode 0b1_0_0_00000000#11 = .rst := by decide
theorem test_decode_rst_over_all : decode 0b1_1_1_11111111#11 = .rst := by decide
theorem test_decode_ldw : decode 0b0_1_0_00000111#11 = .ldw 7 := by decide
theorem test_decode_ldw_iv : decode 0b0_1_1_00001001#11 = .ldw 9 := by decide
theorem test_decode_pix : decode 0b0_0_1_00100010#11 = .pix 34 := by decide
theorem test_decode_nop : decode 0b0_0_0_00000000#11 = .nop := by decide
theorem test_decode_nop_data : decode 0b0_0_0_10101011#11 = .nop := by decide
theorem test_table_word : decodeTableWord 16 0x2FF = some (.ldw 255) := by decide
theorem test_table_word_too_long : decodeTableWord 16 0x900 = none := by decide
theorem test_pack : (Inputs.mk false true false 0x07).toWord = 0x207 := by decide

/-! ### The textual syntax (30_encoding.md R45) -/

theorem test_assemble_line :
    (match assembleText ['L', 'D', 'W', ' ', '0', 'x', '1', 'f', ' ', '×', '2', ' ', ';', 'a'] with
      | .ok ws => ws | .error _ => []) = [0x21F, 0x21F] := by decide
theorem test_assemble_program :
    (match assembleText ['R', 'S', 'T', '\n', 'P', 'I', 'X', ' ', '5'] with
      | .ok ws => ws | .error _ => []) = [0x400, 0x105] := by decide

/-! ### Single steps (95_test_vectors.md, section 2) -/

/-- T3: `RST` during a load. -/
theorem test_rst_clears :
    after (execRst { State.reset with w := single 0, wcnt := 4 }) (fun t => (t.w, t.wcnt, t.outputValid)) =
      some (Vector.replicate 9 0, 0, false) := by decide
/-- T10: `NOP` after a result. -/
theorem test_nop_holds :
    after (execNop { streaming (single 4) 35 rampBuffer with outputValid := true })
      (fun t => (t.n, t.wptr, t.w, t.outputValid)) = some (35, 0, single 4, false) := by decide
/-- T7: `NOP` in UNDEF. -/
theorem test_nop_undef : after (execNop State.powerOn) (fun t => t.undef) = some true := by decide
/-- T14: the ninth load. -/
theorem test_ldw_ninth :
    after (execLdw 0xFF { State.reset with wcnt := 8 }) (fun t => (t.w[8], t.wcnt, t.n, t.wptr)) =
      some (255, 9, 0, 0) := by decide
/-- T17, T18, T20: the violations of `LDW`. -/
theorem test_ldw_violations :
    (code (execLdw 1 (streaming (single 4) 0 [])), code (execLdw 1 (streaming (single 4) 1 [])),
      code (execLdw 1 State.powerOn)) = (some 3, some 4, some 1) := by decide
/-- The worked example of 42_stream_convolve.md R58, identity weights. -/
theorem test_pix_identity :
    after (execPix 34 (streaming (single 4) 34 rampBuffer))
      (fun t => (t.n, t.wptr, t.outputValid, t.pixelOut, Memory.read t.lb 34)) =
      some (35, 0, true, 17, 34) := by decide
/-- T33 to T35: the violations of `PIX`. -/
theorem test_pix_violations :
    (code (execPix 1 (streaming (single 4) 256 [])), code (execPix 1 { State.reset with wcnt := 8 }),
      code (execPix 1 State.powerOn)) = (some 5, some 2, some 1) := by decide

/-! ### The result grid (30_encoding.md R48) -/

/-- Sample 14 is the first of the second row. -/
theorem test_grid_second_row : gridSample ((List.range 20).map (BitVec.ofNat 8)) 1 0 = some 14 := by decide
/-- A cell that no sample has reached. -/
theorem test_grid_unfilled : gridSample ((List.range 20).map (BitVec.ofNat 8)) 1 6 = none := by decide

/-! ### The datapath -/

/-- T37 to T40: the corners of the kernel meet the corners of the window, no flip. -/
theorem test_orientation :
    [0, 2, 6, 8].map (fun i => acc (Memory.write rampBuffer 34 34) (single i) 34) = [0, 2, 32, 34] := by decide
/-- T45, first result: weights 1 to 9 on the ramp. -/
theorem test_exact_sum :
    acc (Memory.write rampBuffer 34 34) #v[1, 2, 3, 4, 5, 6, 7, 8, 9] 34 = 1059 := by decide
/-- T28: the window slots wrap. -/
theorem test_window_slots :
    [windowSlot 12 0 0, windowSlot 12 0 1, windowSlot 12 0 2, windowSlot 12 1 0, windowSlot 12 1 1,
      windowSlot 12 1 2, windowSlot 12 2 0, windowSlot 12 2 1, windowSlot 12 2 2] =
      [13, 14, 15, 29, 30, 31, 10, 11, 12] := by decide
/-- T42: the two named policies on the greatest sum. -/
theorem test_policies : (wrapPolicy 585225, satPolicy 585225) = (9, 255) := by decide
/-- T43: 255 is exact under every policy. -/
theorem test_narrow_255 : narrow8 255 = 255 := by decide

/-! ### What the statements assume can be met -/

theorem witness_NopHoldsADefinedState : State.reset.undef = false := rfl
theorem witness_NopInUndefStaysUndef : State.powerOn.undef = true := rfl
theorem witness_UndefFieldsAreNeverRead :
    State.powerOn.undef = true ∧ ({ State.powerOn with wcnt := 3 } : State).undef = true ∧
      State.powerOn.draws = ({ State.powerOn with wcnt := 3 } : State).draws ∧
      State.powerOn.stimulus = ({ State.powerOn with wcnt := 3 } : State).stimulus ∧
      State.powerOn.cycle = ({ State.powerOn with wcnt := 3 } : State).cycle := ⟨rfl, rfl, rfl, rfl, rfl⟩
theorem witness_OnlyRstLeavesUndef :
    State.powerOn.undef = true ∧ (∃ t, exec .rst State.powerOn = .next t) ∧
      ∃ t, exec .nop State.powerOn = .next t := ⟨rfl, ⟨_, rfl⟩, ⟨_, rfl⟩⟩
theorem witness_ResultsIgnoreOldOutputsAndDraws : (streaming (single 4) 34 rampBuffer).undef = false := rfl
theorem witness_LdwLoadsTheNextWeight :
    State.reset.undef = false ∧ State.reset.wcnt.val < 9 ∧
      ({ State.reset with wcnt := 8 } : State).undef = false ∧ ({ State.reset with wcnt := 8 } : State).wcnt.val < 9 := by
  decide
theorem witness_LdwViolations :
    State.powerOn.undef = true ∧
      ((streaming (single 4) 0 []).undef = false ∧ (streaming (single 4) 0 []).wcnt.val = 9 ∧
        (streaming (single 4) 0 []).n.val = 0) ∧
      ((streaming (single 4) 1 []).undef = false ∧ (streaming (single 4) 1 []).wcnt.val = 9 ∧
        1 ≤ (streaming (single 4) 1 []).n.val) ∧
      ((streaming (single 4) 256 []).undef = false ∧ (streaming (single 4) 256 []).wcnt.val = 9 ∧
        1 ≤ (streaming (single 4) 256 []).n.val) := by decide
theorem witness_LoadedWeightsEqualTheMatrixAndPersist :
    (Run.begin State.reset).state.undef = false ∧ (Run.begin State.reset).state.wcnt.val = 0 ∧
      (Run.begin State.reset).state.n.val = 0 ∧ (List.replicate 256 (1 : Byte)).length ≤ 256 :=
  ⟨rfl, rfl, rfl, Nat.le_of_eq List.length_replicate⟩
theorem witness_WeightsAreImmutableOnceLoaded :
    ∃ t, ((streaming (single 4) 0 []).present 0x105).undef = false ∧
      ((streaming (single 4) 0 []).present 0x105).wcnt.val = 9 ∧
      ((streaming (single 4) 0 []).present 0x105).fetch = some 0x105 ∧ decode 0x105 ≠ .rst ∧
      step ((streaming (single 4) 0 []).present 0x105) = .next t := ⟨_, rfl, rfl, rfl, by decide, rfl⟩
theorem witness_PixAcceptsThePixel :
    (streaming (single 4) 34 rampBuffer).undef = false ∧ (streaming (single 4) 34 rampBuffer).wcnt.val = 9 ∧
      (streaming (single 4) 34 rampBuffer).n.val < 256 ∧ (streaming (single 4) 34 rampBuffer).lb.wf = true ∧
      (2 ≤ (streaming (single 4) 34 rampBuffer).n.val / 16 ∧ 2 ≤ (streaming (single 4) 34 rampBuffer).n.val % 16) :=
  by decide
theorem witness_PixAcceptsThePixel_first_and_last :
    (streaming (single 4) 0 []).undef = false ∧ (streaming (single 4) 0 []).wcnt.val = 9 ∧
      (streaming (single 4) 0 []).n.val < 256 ∧ (streaming (single 4) 0 []).lb.wf = true ∧
      ¬ (2 ≤ (streaming (single 4) 0 []).n.val / 16 ∧ 2 ≤ (streaming (single 4) 0 []).n.val % 16) ∧
      (streaming (single 4) 255 []).n.val < 256 ∧
      (2 ≤ (streaming (single 4) 255 []).n.val / 16 ∧ 2 ≤ (streaming (single 4) 255 []).n.val % 16) := by decide
theorem witness_PixViolations :
    State.powerOn.undef = true ∧
      (({ State.reset with wcnt := 8 } : State).undef = false ∧ ({ State.reset with wcnt := 8 } : State).wcnt.val < 9) ∧
      ((streaming (single 4) 256 []).undef = false ∧ (streaming (single 4) 256 []).wcnt.val = 9 ∧
        (streaming (single 4) 256 []).n.val = 256) := by decide
theorem witness_PixelsLandInConsecutiveSlots :
    (∃ t, (streaming (single 4) 34 []).lb.wf = true ∧ exec (.pix 7) (streaming (single 4) 34 []) = .next t ∧
        (streaming (single 4) 34 []).wptr.val = (streaming (single 4) 34 []).n.val % 35) ∧
      (∃ t, State.reset.undef = false ∧ exec (.ldw 7) State.reset = .next t) ∧
      ∃ t, State.reset.undef = false ∧ exec .nop State.reset = .next t :=
  ⟨⟨_, rfl, rfl, rfl⟩, ⟨_, rfl, rfl⟩, ⟨_, rfl, rfl⟩⟩
theorem witness_ArithmeticIsExactUntilNarrowing :
    acc [] (single 4) 0 ≤ 255 ∧ admissible wrapPolicy ∧
      256 ≤ acc [(0, 255)] (Vector.replicate 9 255) 0 :=
  ⟨by decide, fun s h => by simp only [wrapPolicy, BitVec.toNat_ofNat]; omega, by decide⟩

/-- The loaded engine before the first pixel holds no pixel. -/
theorem holds_none (w : Weights) : HoldsPixels (streaming w 0 []) [] :=
  ⟨rfl, rfl, rfl, rfl, fun _ h => absurd h (Nat.not_lt_zero _), fun _ _ _ => rfl⟩

theorem witness_LineBufferHoldsTheRecentPixels :
    (∃ t, exec .rst State.powerOn = .next t) ∧
      (∃ t, HoldsPixels (streaming (single 4) 0 []) [] ∧ exec (.pix 7) (streaming (single 4) 0 []) = .next t) ∧
      (∃ t, HoldsPixels State.reset [] ∧ exec (.ldw 7) State.reset = .next t) ∧
      ∃ t, HoldsPixels (streaming (single 4) 0 []) [] ∧ exec .nop (streaming (single 4) 0 []) = .next t :=
  ⟨⟨_, rfl⟩, ⟨_, holds_none _, rfl⟩,
    ⟨_, ⟨rfl, rfl, rfl, rfl, fun _ h => absurd h (Nat.not_lt_zero _), fun _ _ _ => rfl⟩, rfl⟩, ⟨_, holds_none _, rfl⟩⟩

/-- The line buffer after 34 pixels of value 1. -/
def onesBuffer : Memory := (List.range 34).map fun a => (a, 1)

/-- The engine before the pixel that completes the first window. -/
theorem witness_PixEmitsTheConvolutionOfTheHeldPixels :
    HoldsPixels (streaming (single 4) 34 onesBuffer) (List.replicate 34 1) ∧
      (streaming (single 4) 34 onesBuffer).wcnt.val = 9 ∧ (List.replicate 34 (1 : Byte)).length < 256 ∧
      2 ≤ (List.replicate 34 (1 : Byte)).length / 16 ∧ 2 ≤ (List.replicate 34 (1 : Byte)).length % 16 := by
  refine ⟨⟨rfl, rfl, rfl, by decide, fun q h _ => ?_, fun a ha hlt => ?_⟩, rfl, by decide, by decide, by decide⟩
  · have key : ∀ q, q < 34 → Memory.readAt onesBuffer (q % 35) = 1 := by decide
    rw [List.length_replicate] at h
    rw [List.getElem_replicate]
    exact key q h
  · have hlt : a < 35 := hlt
    rw [List.length_replicate] at ha
    have : a = 34 := by omega
    subst this
    decide

theorem witness_OutputValidIsWrittenByEveryOperation :
    ∃ t, (streaming (single 4) 34 []).undef = false ∧ exec (.pix 7) (streaming (single 4) 34 []) = .next t :=
  ⟨_, rfl, rfl⟩
theorem witness_PixIsValidExactlyAtWindows :
    (streaming (single 4) 34 []).undef = false ∧ (streaming (single 4) 34 []).wcnt.val = 9 ∧
      (streaming (single 4) 34 []).n.val < 256 := by decide
theorem witness_OutputValidIsLowInEveryOtherCycle :
    (∃ t, exec .rst State.powerOn = .next t) ∧ (∃ t, exec (.ldw 7) State.reset = .next t) ∧
      (∃ t, State.reset.undef = false ∧ exec .nop State.reset = .next t) ∧
      (∃ t, (streaming (single 4) 0 []).n.val / 16 < 2 ∧ exec (.pix 7) (streaming (single 4) 0 []) = .next t) ∧
      ∃ t, (streaming (single 4) 33 []).n.val % 16 < 2 ∧ exec (.pix 7) (streaming (single 4) 33 []) = .next t :=
  ⟨⟨_, rfl⟩, ⟨_, rfl⟩, ⟨_, rfl, rfl⟩, ⟨_, by decide, rfl⟩, ⟨_, by decide, rfl⟩⟩
theorem witness_ResultsAreNumberedInRasterOrder :
    (Run.begin (streaming (single 4) 0 [])).state.undef = false ∧
      (Run.begin (streaming (single 4) 0 [])).state.wcnt.val = 9 ∧
      (Run.begin (streaming (single 4) 0 [])).state.n.val = 0 ∧ (List.replicate 256 (1 : Byte)).length ≤ 256 ∧
      (34 < (List.replicate 256 (1 : Byte)).length ∧ 2 ≤ 34 / 16 ∧ 2 ≤ 34 % 16) ∧
      (255 < (List.replicate 256 (1 : Byte)).length ∧ 2 ≤ 255 / 16 ∧ 2 ≤ 255 % 16) := by
  rw [List.length_replicate]
  decide
theorem witness_StreamingGivesTheCountedResults :
    (Run.begin (streaming (single 4) 0 [])).state.undef = false ∧
      (Run.begin (streaming (single 4) 0 [])).state.wcnt.val = 9 ∧
      (Run.begin (streaming (single 4) 0 [])).state.n.val = 0 ∧ (List.replicate 256 (1 : Byte)).length ≤ 256 :=
  ⟨rfl, rfl, rfl, Nat.le_of_eq List.length_replicate⟩
theorem witness_IdentityKernelReproducesTheInterior :
    (∃ t, (∀ i : WeightIndex, readWeight (streaming (single 4) 34 []).w i = if i.val = 4 then 1 else 0) ∧
      exec (.pix 7) (streaming (single 4) 34 []) = .next t ∧ t.outputValid = true) ∧
      ∃ i j : Fin 16, 1 ≤ i.val ∧ i.val ≤ 14 ∧ 1 ≤ j.val ∧ j.val ≤ 14 :=
  ⟨⟨_, by decide, rfl, rfl⟩, 1, 14, by decide⟩
theorem witness_FullRunComputesTheConvolution : (Run.begin State.powerOn).faults = [] := rfl
theorem witness_CursorIsTheCountModuloC :
    (∃ t, exec .rst State.powerOn = .next t) ∧
      (∃ t, ((streaming (single 4) 34 []).undef = false →
          (streaming (single 4) 34 []).wptr.val = (streaming (single 4) 34 []).n.val % 35) ∧
        step ((streaming (single 4) 34 []).present 0x107) = .next t ∧ t.undef = false) ∧
      (∃ t, (streaming (single 4) 34 []).lb.wf = true ∧ exec (.pix 7) (streaming (single 4) 34 []) = .next t) ∧
      ∃ t, State.reset.undef = false ∧ exec (.ldw 7) State.reset = .next t :=
  ⟨⟨_, rfl⟩, ⟨_, fun _ => rfl, rfl, rfl⟩, ⟨_, rfl, rfl⟩, ⟨_, rfl, rfl⟩⟩

/-- The invariant is met by a state in which a cycle can run. -/
theorem witness_StepKeepsTheEngineInvariant :
    ∃ t, EngineInv (State.reset.present 0x207) ∧ step (State.reset.present 0x207) = .next t :=
  ⟨_, ⟨rfl, fun _ => rfl, fun _ _ => rfl, fun _ i _ => readWeight_zero i, fun _ _ _ => rfl,
    fun _ h => absurd h (by decide)⟩, rfl⟩
theorem witness_EngineLeavesTheHarnessAlone : ∃ t, exec (.ldw 7) State.reset = .next t := ⟨_, rfl⟩
theorem witness_StepRunsTheDecodedOperation :
    (State.reset.present 0x309).stimulus = 0x309 :: [] ∧ decode 0x309 = .ldw 9 := by decide
theorem witness_StepRefusesAtTheEndOfTheRun : State.reset.stimulus = [] := rfl
theorem witness_PlacedWordIsTheOneRun : decodeTableWord 16 0x107 = some (.pix 7) := by decide
theorem witness_ResetIsTheWayBackFromAViolation :
    (∃ f, step ((Run.begin State.reset).state.present 0x105) = .fault f) ∧
      ((Run.begin State.powerOn).state.undef = true ∧ decode 0x000 = .nop) ∧
      (decode 0x205 = .ldw 5 ∨ decode 0x205 = .pix 5) ∧ (decode 0x105 = .ldw 5 ∨ decode 0x105 = .pix 5) ∧
      decode 0x400 = .rst := ⟨⟨_, rfl⟩, ⟨rfl, by decide⟩, by decide, by decide, by decide⟩
theorem witness_StreamImageReturnsTheRowMajorGrid :
    (0 < 196 ∧ 195 < 196) ∧
      (∃ t, step ((Run.begin (streaming (single 4) 34 [])).state.present 0x107) = .next t ∧
        t.undef = false ∧ t.outputValid = true) ∧
      ∃ t, step ((Run.begin (streaming (single 4) 33 [])).state.present 0x107) = .next t ∧
        t.outputValid = false := ⟨by decide, ⟨_, rfl, rfl, rfl⟩, ⟨_, rfl, rfl⟩⟩
theorem witness_DecodeFollowsTheOpcodeTable :
    (decode 0x3FF = .ldw 255 ∨ decode 0x3FF = .pix 255) ∧ (decode 0x100 = .ldw 0 ∨ decode 0x100 = .pix 0) := by decide
theorem witness_DecodeAndEncodeAgree :
    (Instr.ldw 255).wellFormed = true ∧ decode 0x309 = .ldw 9 ∧ 0x309#11 &&& usedBits (.ldw 9) = encode (.ldw 9) := by
  decide
theorem witness_OnlyElevenBitNumbersDecode : 2047 < 2048 ∧ 2048 ≤ 2048 := by decide
theorem witness_HarnessReadsDefinedStatesOnly :
    State.powerOn.undef = true ∧ State.reset.undef = false ∧
      weightsEqual identityKernel State.reset = some false := ⟨rfl, rfl, by decide⟩
theorem witness_AssemblerWritesCanonicalWords :
    (Line.mk (.pix 255) 2).assemble = .ok [0x1FF, 0x1FF] ∧
      (assemble [Line.mk .rst 1] = .ok [0x400] ∧ assemble [Line.mk .nop 2] = .ok [0, 0]) ∧ 256 ≤ 256 :=
  ⟨rfl, ⟨rfl, rfl⟩, Nat.le_refl _⟩

end Sys2Proof.Tests
end

/-! PROOFS of the statements about the state (10_state.md): `output_valid`, the cursor law, what the harness reads. -/

/-! ### The operations in one place: the arms of `exec`, the pixel's moves, the flag -/

namespace Sys2Proof.Machine

@[simp] theorem exec_rst (s : State) : exec .rst s = execRst s := rfl
@[simp] theorem exec_ldw (d : Byte) (s : State) : exec (.ldw d) s = execLdw d s := rfl
@[simp] theorem exec_pix (d : Byte) (s : State) : exec (.pix d) s = execPix d s := rfl
@[simp] theorem exec_nop (s : State) : exec .nop s = execNop s := rfl

/-- An accepted pixel goes into the slot the cursor named before the edge (20_memory.md R31). -/
theorem execPix_writes_the_cursor_slot {d : Byte} {s t : State} (hwf : s.lb.wf = true)
    (h : execPix d s = .next t) : Memory.read t.lb s.wptr = d := by
  obtain ⟨-, -, -, rfl⟩ := execPix_next.1 h
  simp [Memory.read_write _ _ _ hwf]

/-- An accepted pixel moves the cursor and the count one further (R31, 42_stream_convolve.md R58). -/
theorem execPix_advances {d : Byte} {s t : State} (h : execPix d s = .next t) :
    t.wptr = Slot.next s.wptr ∧ t.n.val = s.n.val + 1 := by
  obtain ⟨-, -, hn, rfl⟩ := execPix_next.1 h
  exact ⟨by simp, by simpa using countUp_val hn⟩

/-- A weight load leaves the cursor and the count alone (10_state.md R20). -/
theorem execLdw_holds_position {d : Byte} {s t : State} (h : execLdw d s = .next t) :
    t.wptr = s.wptr ∧ t.n = s.n := by
  obtain ⟨-, -, rfl⟩ := execLdw_next.1 h
  simp

/-- An idle cycle of a defined state leaves the cursor and the count alone (R20). -/
theorem execNop_holds_position {s t : State} (hs : s.undef = false) (h : execNop s = .next t) :
    t.wptr = s.wptr ∧ t.n = s.n := by
  obtain ⟨hu, -⟩ | ⟨-, rfl⟩ := execNop_next.1 h
  · simp [hs] at hu
  · simp

/-! ### `output_valid` (10_state.md R21) -/

/-- The flag a defined state shows after an operation that is performed. -/
theorem exec_outputValid {i : Instr} {s t : State} (hs : s.undef = false) (h : exec i s = .next t) :
    t.outputValid = true ↔ (∃ d, i = .pix d) ∧ completesWindow s.n.val = true := by
  cases i with
  | rst =>
    obtain rfl := execRst_next.1 h
    simp
  | ldw d =>
    obtain ⟨-, -, rfl⟩ := execLdw_next.1 h
    simp
  | pix d =>
    obtain ⟨-, -, -, rfl⟩ := execPix_next.1 h
    simp
  | nop =>
    obtain ⟨hu, -⟩ | ⟨-, rfl⟩ := execNop_next.1 h
    · simp [hs] at hu
    · simp

/-- The outputs of a pixel overwrite the flag of the state they are written to, window or none. -/
theorem pixelOutputs_ignores_outputValid (s t : State) (b b' : Bool) :
    pixelOutputs { s with outputValid := b } { t with outputValid := b' } = pixelOutputs s t := by
  unfold pixelOutputs
  split <;> rfl

/-- Every operation overwrites the flag without looking at it, so nothing of its answer depends on the old one. -/
theorem exec_ignores_outputValid (i : Instr) (s : State) (b : Bool) :
    exec i { s with outputValid := b } = exec i s := by
  cases i with
  | rst => rfl
  | nop => rfl
  | ldw d => rfl
  | pix d =>
    have hout := pixelOutputs_ignores_outputValid s (s.acceptPixel d) b b
    rw [exec_pix, exec_pix, execPix_eq, execPix_eq, ← hout]
    rfl

end Sys2Proof.Machine

/-! ### The cursor law (10_state.md R20) -/

namespace Sys2Proof.Safety

open Sys2Proof.Machine

/-- `wptr = n mod C` wherever the state is defined: clause (b) of the invariant R29. -/
def CursorLaw (s : State) : Prop := s.undef = false → s.wptr.val = s.n.val % 35

/-- The law passes to any state that agrees on the cursor and the count. -/
theorem CursorLaw.of_same_position {s t : State} (hlaw : CursorLaw s) (hs : s.undef = false)
    (h : t.wptr = s.wptr ∧ t.n = s.n) : CursorLaw t := by
  intro _
  rw [h.1, h.2]
  exact hlaw hs

theorem cursorLaw_clear (s : State) : CursorLaw s.clear := fun _ => rfl

theorem cursorLaw_endCycle {s : State} : CursorLaw s.endCycle ↔ CursorLaw s := Iff.rfl

/-- Cursor and count move on together, and the modulus absorbs the wrap of the cursor. -/
theorem CursorLaw.after_pix {d : Byte} {s t : State} (hlaw : CursorLaw s) (h : execPix d s = .next t) :
    CursorLaw t := by
  intro _
  have hs : s.undef = false := (execPix_next.1 h).1
  have hptr : s.wptr.val = s.n.val % 35 := hlaw hs
  obtain ⟨hwptr, hn⟩ := execPix_advances h
  rw [hwptr, hn, Slot.next_val, hptr]
  omega

/-- Every operation keeps the law. -/
theorem CursorLaw.after_exec {i : Instr} {s t : State} (hlaw : CursorLaw s) (h : exec i s = .next t) :
    CursorLaw t := by
  cases i with
  | rst => exact execRst_next.1 h ▸ cursorLaw_clear s
  | ldw d => exact hlaw.of_same_position (execLdw_next.1 h).1 (execLdw_holds_position h)
  | pix d => exact hlaw.after_pix h
  | nop =>
    obtain ⟨-, rfl⟩ | ⟨hs, -⟩ := execNop_next.1 h
    · exact fun hdef => absurd hdef (by simp)
    · exact hlaw.of_same_position hs (execNop_holds_position hs h)

/-- Every cycle keeps the law. -/
theorem CursorLaw.after_step {s t : State} (hlaw : CursorLaw s) (h : step s = .next t) : CursorLaw t := by
  obtain ⟨x, -, u, hexec, rfl⟩ := step_next.1 h
  exact cursorLaw_endCycle.2 (hlaw.after_exec hexec)

end Sys2Proof.Safety

/-! ### The check of the weights (10_state.md R17, 30_encoding.md R47) -/

namespace Sys2Proof.Machine

/-- The load order is the rows one after another. -/
theorem Kernel.rowMajor_eq_flatten (m : Kernel) : Kernel.rowMajor m = m.flatten.toList := by
  have hrows : m.flatten.toList = (m.toList.map Vector.toList).flatten := by
    simp only [Vector.flatten, Vector.toList_mk, Array.toList_flatten, Array.toList_map, List.map_map]
    rfl
  rw [hrows, Kernel.rowMajor, List.flatMap_def]

/-- Every weight index is `3·r + c` for one row and one column (R17). -/
theorem weightIndex_div_mod (i : WeightIndex) :
    weightIndex ⟨i.val / 3, Nat.div_lt_of_lt_mul i.isLt⟩ ⟨i.val % 3, Nat.mod_lt _ (by decide)⟩ = i :=
  Fin.ext (Nat.div_add_mod i.val 3)

/-- What holds of every row and column holds of every weight index. -/
theorem forall_weightIndex {P : WeightIndex → Prop} : (∀ i, P i) ↔ ∀ r c, P (weightIndex r c) :=
  ⟨fun h _ _ => h _, fun h i => weightIndex_div_mod i ▸ h _ _⟩

/-- Entry `3·r + c` of the flattened matrix is its entry in row `r`, column `c`. -/
theorem Kernel.flatten_weightIndex (m : Kernel) (r c : Fin Config.K) :
    m.flatten[(weightIndex r c).val] = (m[r.val])[c.val] := by
  have hc : c.val < 3 := c.isLt
  have hdiv : (weightIndex r c).val / 3 = r.val := by simp only [weightIndex]; omega
  have hmod : (weightIndex r c).val % 3 = c.val := by simp only [weightIndex]; omega
  rw [Vector.getElem_flatten]
  simp only [Config.K, hdiv, hmod]

/-- The registers are the matrix in load order exactly when they agree entry by entry. -/
theorem weights_eq_rowMajor_iff (w : Weights) (m : Kernel) :
    w.toList = Kernel.rowMajor m ↔
      ∀ r c : Fin Config.K, readWeight w (weightIndex r c) = (m[r.val])[c.val] := by
  calc w.toList = Kernel.rowMajor m
      ↔ w = m.flatten := by rw [Kernel.rowMajor_eq_flatten]; exact Vector.toList_inj
    _ ↔ ∀ i : WeightIndex, readWeight w i = m.flatten[i.val] := by
        rw [Vector.ext_iff]
        exact ⟨fun h i => h i.val i.isLt, fun h i hi => h ⟨i, hi⟩⟩
    _ ↔ ∀ r c : Fin Config.K, readWeight w (weightIndex r c) = m.flatten[(weightIndex r c).val] :=
        forall_weightIndex
    _ ↔ _ := by simp only [Kernel.flatten_weightIndex]

/-- What the check of a defined state answers (R47). -/
theorem weightsEqual_answer {s : State} (m : Kernel) (hs : s.undef = false) :
    ∃ b, weightsEqual m s = some b ∧
      (b = true ↔ ∀ r c : Fin Config.K, readWeight s.w (weightIndex r c) = (m[r.val])[c.val]) :=
  ⟨_, weightsEqual_defined m hs, beq_iff_eq.trans (weights_eq_rowMajor_iff s.w m)⟩

end Sys2Proof.Machine

/-! ### The statements -/

namespace Sys2Proof.Proofs

open Sys2Proof.Machine Sys2Proof.Safety

/-- Settles O21: each operation's effect on the flag, and that none reads it. -/
theorem outputValidIsWrittenByEveryOperation : Obligations.OutputValidIsWrittenByEveryOperation := by
  intro i s hs
  refine ⟨fun t h => ?_, exec_ignores_outputValid i s⟩
  rw [exec_outputValid hs h, completesWindow_iff]

/-- Settles O29: the cursor law as an invariant of the step, and the moves of each operation. -/
theorem cursorIsTheCountModuloC : Obligations.CursorIsTheCountModuloC := by
  refine ⟨fun s => Nat.le_of_lt_succ s.wptr.isLt, ?_, ?_, ?_, ?_⟩
  · intro s t h
    exact execRst_next.1 h ▸ cursorLaw_clear s rfl
  · intro s t hlaw h
    exact CursorLaw.after_step hlaw h
  · intro s t d hwf h
    obtain ⟨hwptr, hn⟩ := execPix_advances h
    exact ⟨execPix_writes_the_cursor_slot hwf h, hwptr ▸ Slot.next_val s.wptr, hn⟩
  · rintro s t i hs (rfl | ⟨d, rfl⟩) h
    · exact execNop_holds_position hs h
    · exact execLdw_holds_position h

/-- Settles O46: each read of the harness in UNDEF and in a defined state. -/
theorem harnessReadsDefinedStatesOnly : Obligations.HarnessReadsDefinedStatesOnly := by
  refine ⟨fun s m hs => ?_, fun s m hs => ?_, fun r m => rfl⟩
  · exact ⟨State.outputs_undef hs, State.sample_undef hs, State.visible_undef hs, weightsEqual_undef m hs⟩
  · exact ⟨State.outputs_defined hs, State.visible_defined hs, State.sample_defined hs, weightsEqual_answer m hs⟩

end Sys2Proof.Proofs

/-! PROOFS of the statements about the line buffer (20_memory.md): where an accepted pixel is written. -/

/-! ### The slots each operation writes -/

namespace Sys2Proof.Machine

/-- An accepted pixel is one write of the line buffer, at the cursor (20_memory.md R31). -/
theorem execPix_lb {d : Byte} {s t : State} (h : execPix d s = .next t) :
    t.lb = Memory.write s.lb s.wptr d := by
  obtain ⟨-, -, -, rfl⟩ := execPix_next.1 h
  simp

/-- Every slot after an accepted pixel: the byte at the cursor, the old contents elsewhere (R31). -/
theorem execPix_read {d : Byte} {s t : State} (hwf : s.lb.wf = true) (h : execPix d s = .next t) (a : Slot) :
    Memory.read t.lb a = if a = s.wptr then d else Memory.read s.lb a := by
  rw [execPix_lb h, Memory.read_write _ _ _ hwf]

/-- A weight load writes no slot (R31). -/
theorem execLdw_lb {d : Byte} {s t : State} (h : execLdw d s = .next t) : t.lb = s.lb := by
  obtain ⟨-, -, rfl⟩ := execLdw_next.1 h
  simp

/-- An idle cycle of a defined state writes no slot (R31). -/
theorem execNop_lb {s t : State} (hs : s.undef = false) (h : execNop s = .next t) : t.lb = s.lb := by
  obtain ⟨hu, -⟩ | ⟨-, rfl⟩ := execNop_next.1 h
  · simp [hs] at hu
  · simp

end Sys2Proof.Machine

/-! ### The statement -/

namespace Sys2Proof.Proofs

open Sys2Proof.Machine

/-- Settles O14: the write at the cursor and its advance for an accepted pixel, and the operations that write no slot. -/
theorem pixelsLandInConsecutiveSlots : Obligations.PixelsLandInConsecutiveSlots := by
  refine ⟨fun s t d hwf h => ⟨execPix_read hwf h, ?_, fun hptr => ?_⟩, ?_⟩
  · rw [(execPix_advances h).1, Slot.next_val]
  · rw [← hptr]
    exact execPix_writes_the_cursor_slot hwf h
  · rintro s t i hs (rfl | ⟨d, rfl⟩) h
    · exact ⟨execNop_lb hs h, (execNop_holds_position hs h).1⟩
    · exact ⟨execLdw_lb h, (execLdw_holds_position h).1⟩

end Sys2Proof.Proofs

/-! PROOFS of the statements about streaming and convolution (42_stream_convolve.md): what the engine holds and what the
harness has taken after every word of a run, and the identity kernel. -/

/-! ### The canonical words of the operations with an operand (30_encoding.md R43) -/

namespace Sys2Proof

/-- The operation of a word, read off its number: the control bits in the order of R42, the operand below them. -/
theorem decode_eq (x : StimWord) : decode x =
    if x.toNat / 1024 % 2 = 1 then .rst
    else if x.toNat / 512 % 2 = 1 then .ldw (BitVec.ofNat 8 x.toNat)
    else if x.toNat / 256 % 2 = 1 then .pix (BitVec.ofNat 8 x.toNat)
    else .nop := by
  have hop : x.extractLsb' 0 8 = BitVec.ofNat 8 x.toNat := rfl
  simp [decode, Inputs.ofWord, Inputs.operation, BitVec.getLsbD, Nat.testBit_eq_decide_div_mod_eq, hop]

/-- Control bits above a byte do not reach the operand. -/
theorem operand_of_controls (k : Nat) (d : Byte) : BitVec.ofNat 8 (256 * k + d.toNat) = d :=
  BitVec.eq_of_toNat_eq (by simp [Nat.mod_eq_of_lt d.isLt])

theorem decode_encode_ldw (d : Byte) : decode (encode (.ldw d)) = .ldw d := by
  have hd : d.toNat < 256 := d.isLt
  have hx : (encode (.ldw d)).toNat = 256 * 2 + d.toNat := by simp only [encode]; bv_omega
  rw [decode_eq, hx, if_neg (by omega), if_pos (by omega), operand_of_controls]

theorem decode_encode_pix (d : Byte) : decode (encode (.pix d)) = .pix d := by
  have hd : d.toNat < 256 := d.isLt
  have hx : (encode (.pix d)).toNat = 256 * 1 + d.toNat := by simp only [encode]; bv_omega
  rw [decode_eq, hx, if_neg (by omega), if_neg (by omega), if_pos (by omega), operand_of_controls]

end Sys2Proof

/-! ### The identity kernel in the datapath (42_stream_convolve.md R62) -/

namespace Sys2Proof.Machine

/-- The weights of the identity kernel: 1 at the centre, 0 elsewhere. -/
def IdentityWeights (w : Weights) : Prop := ∀ i : WeightIndex, readWeight w i = if i.val = 4 then 1 else 0

/-- Row by row, only the centre weight is not 0. -/
theorem IdentityWeights.read {w : Weights} (hw : IdentityWeights w) (i j : Fin Config.K) :
    (readWeight w (weightIndex i j)).toNat = if i = 1 ∧ j = 1 then 1 else 0 := by
  rw [hw]
  revert i j
  decide

/-- Weighted with the identity kernel, a double sum is its centre term. -/
theorem IdentityWeights.sum_eq_centre {w : Weights} (hw : IdentityWeights w) (f : Fin Config.K → Fin Config.K → Nat) :
    (sum3 fun i => sum3 fun j => f i j * (readWeight w (weightIndex i j)).toNat) = f 1 1 := by
  simp [sum3, hw.read]

/-- A sum that is a byte is emitted as it is, whatever the policy above 255 (00_scope.md R10). -/
theorem narrow8_toNat (b : Byte) : narrow8 b.toNat = b := by
  have hb : b.toNat ≤ 255 := Nat.le_of_lt_succ b.isLt
  rw [narrow8, if_pos hb, BitVec.ofNat_toNat, BitVec.setWidth_eq]

theorem acc_of_identityWeights {w : Weights} (hw : IdentityWeights w) (lb : Memory) (a : Slot) :
    acc lb w a = (window lb a 1 1).toNat :=
  hw.sum_eq_centre fun i j => (window lb a i j).toNat

end Sys2Proof.Machine

/-! ### The cycles and the words of a run (30_encoding.md R46 to R49) -/

namespace Sys2Proof.Machine

/-- A cycle that accepts a pixel takes the sample of the state it answers. -/
theorem Run.cycle_pix {r : Run} {d : Byte} {t : State} (h : execPix d (r.state.present (encode (.pix d))) = .next t) :
    r.cycle (encode (.pix d)) = ⟨t.endCycle, r.samples ++ t.sample.toList, r.faults⟩ :=
  Run.cycle_next (by rw [decode_encode_pix, exec_pix, h])

/-- A cycle that loads a weight takes no sample. -/
theorem Run.cycle_ldw {r : Run} {d : Byte} {t : State} (h : execLdw d (r.state.present (encode (.ldw d))) = .next t) :
    r.cycle (encode (.ldw d)) = ⟨t.endCycle, r.samples, r.faults⟩ := by
  have hcycle := Run.cycle_next (r := r) (x := encode (.ldw d)) (t := t) (by rw [decode_encode_ldw, exec_ldw, h])
  obtain ⟨-, -, rfl⟩ := execLdw_next.1 h
  simpa [State.sample] using hcycle

/-- The rows of a matrix one after another are the flattened matrix. -/
theorem flatMap_rows_eq_flatten {m k : Nat} (v : Vector (Vector Byte k) m) :
    v.toList.flatMap Vector.toList = v.flatten.toList := by
  have hrows : v.flatten.toList = (v.toList.map Vector.toList).flatten := by
    simp only [Vector.flatten, Vector.toList_mk, Array.toList_flatten, Array.toList_map, List.map_map]
    rfl
  rw [hrows, List.flatMap_def]

/-- The stream order is the rows one after another (20_memory.md R33). -/
theorem Image.rowMajor_eq_flatten (img : Image) : Image.rowMajor img = img.flatten.toList :=
  flatMap_rows_eq_flatten img

end Sys2Proof.Machine

/-! ### The line buffer holds the accepted pixels (20_memory.md R37) -/

namespace Sys2Proof.Safety

open Sys2Proof.Machine

/-- The contents law looks at no field that the end of a cycle or the coming word changes. -/
theorem HoldsPixels.of_same_engine {s t : State} {px : List Byte} (h : HoldsPixels s px) (hu : t.undef = s.undef)
    (hn : t.n = s.n) (hptr : t.wptr = s.wptr) (hlb : t.lb = s.lb) : HoldsPixels t px where
  defined := hu.trans h.defined
  count := hn ▸ h.count
  cursor := hptr ▸ h.cursor
  lbForm := hlb ▸ h.lbForm
  recent := hlb ▸ h.recent
  unwritten := hlb ▸ h.unwritten

/-- After a reset no pixel is held. -/
theorem holdsPixels_clear (s : State) : HoldsPixels s.clear [] :=
  ⟨rfl, rfl, rfl, rfl, fun _ h => absurd h (Nat.not_lt_zero _), fun _ _ _ => rfl⟩

/-- An accepted pixel joins the history: its slot is the one of the pixel 35 before it, or one no pixel has reached. -/
theorem HoldsPixels.after_pix {s t : State} {px : List Byte} {d : Byte} (hs : HoldsPixels s px)
    (h : execPix d s = .next t) : HoldsPixels t (px ++ [d]) := by
  obtain ⟨hwptr, hn⟩ := execPix_advances h
  have hcursor : s.wptr.val = px.length % 35 := hs.cursor
  have hread : ∀ a, a < 35 → Memory.readAt t.lb a = if a = s.wptr.val then d else Memory.readAt s.lb a := by
    intro a ha
    simpa [Memory.read, Fin.ext_iff] using execPix_read hs.lbForm h ⟨a, ha⟩
  refine ⟨?_, ?_, ?_, ?_, fun q hq hrecent => ?_, fun a ha hlt => ?_⟩
  · obtain ⟨hu, -, -, rfl⟩ := execPix_next.1 h
    simpa using hu
  · rw [hn, hs.count, List.length_append, List.length_singleton]
  · rw [hwptr, Slot.next_val, hcursor, List.length_append, List.length_singleton, capacity_eq]
    omega
  · exact execPix_lb h ▸ Memory.write_wf _ _ hs.lbForm
  · rw [List.length_append, List.length_singleton, capacity_eq] at *
    rw [hread _ (by omega), hcursor]
    by_cases hlast : q = px.length
    · simp [hlast]
    · rw [if_neg (by omega), List.getElem_append_left (by omega)]
      exact hs.recent q (by omega) (by rw [capacity_eq]; omega)
  · rw [List.length_append, List.length_singleton, capacity_eq] at *
    rw [hread a hlt, if_neg (by omega)]
    exact hs.unwritten a (by omega) hlt

/-- The pixel `k < 35` places before the one in slot `a` is still in the buffer, in the slot `k` places back. -/
theorem HoldsPixels.read_back {s : State} {px : List Byte} (hs : HoldsPixels s px) {p : Nat}
    (hlen : px.length = p + 1) {a : Slot} (ha : a.val = p % 35) {k : Nat} (hk : k < 35) (hkp : k ≤ p) :
    (Memory.read s.lb (Slot.back a k)).toNat = pixelAt px (p - k) := by
  have hslot : (Slot.back a k).val = (p - k) % 35 := by have := Slot.back_val a k; omega
  have hq : p - k < px.length := by omega
  rw [Memory.read, hslot, pixelAt, List.getElem?_eq_getElem hq, Option.getD_some]
  exact congrArg _ (hs.recent (p - k) hq (by rw [capacity_eq]; omega))

/-- Read at the slot of the last pixel held, the accumulator is the sum over the pixels (20_memory.md R32). -/
theorem HoldsPixels.acc_eq_windowSum {s : State} {px : List Byte} (hs : HoldsPixels s px) (w : Weights) {p : Nat}
    (hlen : px.length = p + 1) {a : Slot} (ha : a.val = p % 35) (hp : 34 ≤ p) :
    acc s.lb w a = windowSum w px p := by
  have hwin : ∀ i j : Fin Config.K, (window s.lb a i j).toNat =
      pixelAt px (p - ((2 - i.val) * Config.W + (2 - j.val))) := by
    intro i j
    have hk : (2 - i.val) * 16 + (2 - j.val) ≤ 34 := by omega
    exact hs.read_back hlen ha (Nat.lt_succ_of_le hk) (hk.trans hp)
  simp only [acc, windowSum, hwin]

/-- A later pixel does not change the sum of an earlier window. -/
theorem windowSum_append (w : Weights) (px : List Byte) (d : Byte) {p : Nat} (hp : p < px.length) :
    windowSum w (px ++ [d]) p = windowSum w px p := by
  have hpix : ∀ k, pixelAt (px ++ [d]) (p - k) = pixelAt px (p - k) := fun k => by
    rw [pixelAt, pixelAt, List.getElem?_append_left (by omega)]
  simp only [windowSum, hpix]

theorem windowSum_of_identityWeights {w : Weights} (hw : IdentityWeights w) (px : List Byte) (p : Nat) :
    windowSum w px p = pixelAt px (p - 17) :=
  hw.sum_eq_centre fun i j => pixelAt px (p - ((2 - i.val) * Config.W + (2 - j.val)))

/-! ### The results of a stream, in order (43_output_controller.md R67, R68) -/

/-- The results of the pixels `px`: the narrowed sum of every pixel that completes a window, the first one first. -/
def windowResults (w : Weights) (px : List Byte) : List Byte :=
  ((List.range px.length).filter completesWindow).map fun p => narrow8 (windowSum w px p)

/-- One pixel more gives one result more where it completes a window, none elsewhere. -/
theorem windowResults_append (w : Weights) (px : List Byte) (d : Byte) :
    windowResults w (px ++ [d]) = windowResults w px ++
      if completesWindow px.length then [narrow8 (windowSum w (px ++ [d]) px.length)] else [] := by
  have hold : ((List.range px.length).filter completesWindow).map (fun p => narrow8 (windowSum w (px ++ [d]) p)) =
      windowResults w px :=
    List.map_congr_left fun p hp => by
      rw [windowSum_append w px d (List.mem_range.1 (List.mem_filter.1 hp).1)]
  rw [windowResults, List.length_append, List.length_singleton, List.range_succ, List.filter_append,
    List.map_append, hold]
  by_cases hwin : completesWindow px.length = true <;> simp [hwin]

/-- The running count after the pixel `p`, with the numbers written out. -/
theorem resultsAfter_pixel (p : Nat) :
    resultsAfter (p + 1) = (p / 16 - 2) * 14 + if 2 ≤ p / 16 then p % 16 - 1 else 0 := rfl

/-- The running count of R68 grows by one at a pixel that completes a window, and only there. -/
theorem resultsAfter_succ (p : Nat) :
    resultsAfter (p + 1) = resultsAfter p + if completesWindow p then 1 else 0 := by
  simp only [completesWindow_iff]
  cases p with
  | zero => rfl
  | succ q =>
    simp only [resultsAfter_pixel]
    split_ifs <;> omega

/-- The running count counts the pixels that complete a window. -/
theorem length_filter_completesWindow (n : Nat) :
    ((List.range n).filter completesWindow).length = resultsAfter n := by
  induction n with
  | zero => rfl
  | succ p ih =>
    rw [List.range_succ, List.filter_append, List.length_append, ih, resultsAfter_succ]
    by_cases hwin : completesWindow p = true <;> simp [hwin]

/-- The results before that of pixel `(r, c)` are `(r − 2)·OW + (c − 2)` in number (R67). -/
theorem resultsAfter_of_completesWindow {p : Nat} (h : completesWindow p = true) :
    resultsAfter p = (p / 16 - 2) * 14 + (p % 16 - 2) := by
  obtain ⟨hr, hc⟩ := (completesWindow_iff p).1 h
  cases p with
  | zero => omega
  | succ q =>
    simp only [resultsAfter_pixel]
    split_ifs <;> omega

/-- The pixel of number `resultsAfter p` among those that complete a window is `p`. -/
theorem getElem?_filter_completesWindow {n p : Nat} (hp : p < n) (h : completesWindow p = true) :
    ((List.range n).filter completesWindow)[resultsAfter p]? = some p := by
  obtain ⟨k, rfl⟩ := Nat.exists_eq_add_of_lt hp
  rw [Nat.add_assoc, List.range_add, List.filter_append,
    List.getElem?_append_right (length_filter_completesWindow p).le, length_filter_completesWindow, Nat.sub_self,
    List.range_succ_eq_map]
  simp [h]

/-- The result of pixel `p` stands at position `resultsAfter p`. -/
theorem windowResults_getElem? (w : Weights) (px : List Byte) {p : Nat} (hp : p < px.length)
    (h : completesWindow p = true) :
    (windowResults w px)[resultsAfter p]? = some (narrow8 (windowSum w px p)) := by
  rw [windowResults, List.getElem?_map, getElem?_filter_completesWindow hp h, Option.map_some]

/-! ### The phases of a whole run (30_encoding.md R46 to R49) -/

/-- Since the run `r₀` the coefficients `ds` have been loaded after a reset: they stand in the first
registers, no pixel is held, and the run has taken no sample and recorded no violation. -/
structure Loaded (r₀ : Run) (ds : List Byte) (r : Run) : Prop where
  holds : HoldsPixels r.state []
  count : r.state.wcnt.val = ds.length
  weights : ∀ (i : WeightIndex) (h : i.val < ds.length), readWeight r.state.w i = ds[i.val]
  samples : r.samples = r₀.samples
  faults : r.faults = r₀.faults

/-- From any run whatever, `reset()` gives an engine without weights. -/
theorem loaded_reset (r : Run) : Loaded r [] r.reset := by
  have hexec : exec (decode (encode .rst)) (r.state.present (encode .rst)) =
      .next (r.state.present (encode .rst)).clear := rfl
  have hcycle : r.reset = ⟨(r.state.present (encode .rst)).clear.endCycle, r.samples, r.faults⟩ := by
    rw [Run.reset, resetWords, Run.drive_cons, Run.drive_nil, Run.cycle_next hexec]
    simp [State.sample]
  rw [hcycle]
  have hholds := holdsPixels_clear (r.state.present (encode .rst))
  exact ⟨hholds.of_same_engine rfl rfl rfl rfl, rfl, fun _ h => absurd h (Nat.not_lt_zero _), rfl, rfl⟩

/-- One `LDW` puts its coefficient behind those loaded. -/
theorem Loaded.cycle_ldw {r₀ r : Run} {ds : List Byte} {d : Byte} (h : Loaded r₀ ds r) (hlen : ds.length < 9) :
    Loaded r₀ (ds ++ [d]) (r.cycle (encode (.ldw d))) := by
  have hcount : r.state.wcnt.val < 9 := h.count ▸ hlen
  have hldw : execLdw d (r.state.present (encode (.ldw d))) =
      .next ((r.state.present (encode (.ldw d))).loadWeight d).noResult :=
    execLdw_next.2 ⟨h.holds.defined, hcount, rfl⟩
  rw [Run.cycle_ldw hldw]
  refine ⟨h.holds.of_same_engine rfl rfl rfl rfl, ?_, fun i hi => ?_, h.samples, h.faults⟩
  · simpa [h.count] using countUp_val hcount
  · simp only [State.endCycle_w, State.noResult_w, State.loadWeight_w, State.present_w, State.present_wcnt,
      readWeight_writeWeight, h.count]
    rw [List.length_append, List.length_singleton] at hi
    by_cases hlast : i.val = ds.length
    · simp [hlast]
    · rw [if_neg hlast, List.getElem_append_left (by omega)]
      exact h.weights i (by omega)

/-- The coefficients of a whole load, one after another. -/
theorem Loaded.drive_ldw {r₀ r : Run} (h : Loaded r₀ [] r) (ds : List Byte) (hlen : ds.length ≤ 9) :
    Loaded r₀ ds (r.drive (ds.map fun d => encode (.ldw d))) := by
  induction ds using List.reverseRecOn with
  | nil => exact h
  | append_singleton ds d ih =>
    rw [List.length_append, List.length_singleton] at hlen
    rw [List.map_append, Run.drive_append]
    exact (ih (by omega)).cycle_ldw (by omega)

/-- `reset()` and `loadWeights(m)` leave the coefficients of `m` in the registers, in load order. -/
theorem loaded_loadWeights (r : Run) (m : Kernel) : Loaded r (Kernel.rowMajor m) (r.reset.loadWeights m).1 :=
  (loaded_reset r).drive_ldw _ (Kernel.rowMajor_length m).le

/-- Since the run `r₀` the pixels `px` have been streamed through the weights `w`: the engine holds them, their results
are the samples taken, and no violation was recorded. -/
structure Streamed (r₀ : Run) (w : Weights) (px : List Byte) (r : Run) : Prop where
  holds : HoldsPixels r.state px
  loaded : r.state.wcnt.val = 9
  weights : r.state.w = w
  samples : r.samples = r₀.samples ++ windowResults w px
  faults : r.faults = r₀.faults

/-- A full load is a stream of no pixels. -/
theorem Loaded.streamed {r₀ r : Run} {ds : List Byte} (h : Loaded r₀ ds r) (hlen : ds.length = 9) :
    Streamed r r.state.w [] r :=
  ⟨h.holds, h.count.trans hlen, rfl, by simp [windowResults], rfl⟩

/-- What the harness takes after an accepted pixel: the narrowed sum over the pixels held, where it completes a
window. -/
theorem HoldsPixels.sample_after_pix {s t : State} {px : List Byte} {d : Byte} (hs : HoldsPixels s px)
    (h : execPix d s = .next t) : t.sample.toList =
      if completesWindow px.length then [narrow8 (windowSum s.w (px ++ [d]) px.length)] else [] := by
  have ht := hs.after_pix h
  obtain ⟨-, -, -, rfl⟩ := execPix_next.1 h
  rw [State.sample_defined ht.defined, pixelOutputs_outputValid, hs.count]
  by_cases hwin : completesWindow px.length = true
  · have hp : 34 ≤ px.length := by obtain ⟨hr, hc⟩ := (completesWindow_iff _).1 hwin; omega
    have hacc := ht.acc_eq_windowSum s.w (by simp) hs.cursor hp
    rw [pixelOutputs_lb] at hacc
    rw [if_pos hwin, if_pos hwin, pixelOutputs_pixelOut _ (hs.count ▸ hwin), State.acceptPixel_w, hacc,
      Option.toList_some]
  · rw [if_neg hwin, if_neg hwin, Option.toList_none]

/-- One `PIX` within the frame adds its pixel, and its result where there is one. -/
theorem Streamed.cycle_pix {r₀ r : Run} {w : Weights} {px : List Byte} {d : Byte} (h : Streamed r₀ w px r)
    (hlen : px.length < 256) : Streamed r₀ w (px ++ [d]) (r.cycle (encode (.pix d))) := by
  have hs : HoldsPixels (r.state.present (encode (.pix d))) px := h.holds.of_same_engine rfl rfl rfl rfl
  have hpix : execPix d (r.state.present (encode (.pix d))) = .next (pixelOutputs (r.state.present (encode (.pix d)))
      ((r.state.present (encode (.pix d))).acceptPixel d)) :=
    execPix_next.2 ⟨hs.defined, h.loaded, hs.count ▸ hlen, rfl⟩
  rw [Run.cycle_pix hpix]
  refine ⟨(hs.after_pix hpix).of_same_engine rfl rfl rfl rfl, ?_, ?_, ?_, h.faults⟩
  · simpa using h.loaded
  · simpa using h.weights
  · rw [hs.sample_after_pix hpix, windowResults_append, State.present_w, h.weights, h.samples, List.append_assoc]

/-- A stream of pixels, up to a whole frame. -/
theorem Streamed.drive_pix {r₀ r : Run} {w : Weights} (h : Streamed r₀ w [] r) (px : List Byte)
    (hlen : px.length ≤ 256) : Streamed r₀ w px (r.drive (pixWords px)) := by
  induction px using List.reverseRecOn with
  | nil => exact h
  | append_singleton px d ih =>
    rw [List.length_append, List.length_singleton] at hlen
    rw [pixWords, List.map_append, Run.drive_append]
    exact (ih (by omega)).cycle_pix (by omega)

/-- The words of an image are those of its pixels in stream order (R48). -/
theorem streamImageWords_eq (img : Image) : streamImageWords img = pixWords (Image.rowMajor img) := rfl

/-- The grid of `streamImage(img)` on a loaded engine: the cell of the window whose last pixel is `p` holds the
narrowed sum of that window (R48, R67). -/
theorem Streamed.streamImage_cell {r : Run} (h : Streamed r r.state.w [] r) (img : Image) {y x : Nat}
    (hy : y < Config.OH) (hx : x < Config.OW) :
    ((r.streamImage img).2[y])[x] =
      some (narrow8 (windowSum r.state.w (Image.rowMajor img) ((y + 2) * 16 + (x + 2)))) := by
  have hy' : y < 14 := hy
  have hx' : x < 14 := hx
  have hend := h.drive_pix (Image.rowMajor img) (Image.rowMajor_length img).le
  have hwin : completesWindow ((y + 2) * 16 + (x + 2)) = true := (completesWindow_iff _).2 (by omega)
  have hindex : resultsAfter ((y + 2) * 16 + (x + 2)) = y * 14 + x := by
    rw [resultsAfter_of_completesWindow hwin]; omega
  have hgrid : (r.streamImage img).2 = outputGrid (windowResults r.state.w (Image.rowMajor img)) := by
    rw [Run.streamImage_eq]
    exact congrArg outputGrid (by rw [streamImageWords_eq, hend.samples, List.drop_left])
  rw [hgrid, outputGrid_get _ hy hx, ← hindex]
  exact windowResults_getElem? _ _ (by rw [Image.rowMajor_length]; omega) hwin

/-! ### The image and the identity kernel -/

/-- Pixel `16·i + j` of the stream is the image's in row `i`, column `j` (20_memory.md R33). -/
theorem pixelAt_rowMajor (img : Image) (i j : Fin 16) :
    pixelAt (Image.rowMajor img) (i.val * 16 + j.val) = ((img[i.val])[j.val]).toNat := by
  have hlt : i.val * 16 + j.val < (Image.rowMajor img).length := by rw [Image.rowMajor_length]; omega
  have hdiv : (i.val * 16 + j.val) / 16 = i.val := by omega
  have hmod : (i.val * 16 + j.val) % 16 = j.val := by omega
  rw [pixelAt, List.getElem?_eq_getElem hlt, Option.getD_some]
  simp only [Image.rowMajor_eq_flatten, Vector.getElem_toList, Vector.getElem_flatten, Config.W, hdiv, hmod]

/-- The registers hold the identity kernel once it is loaded. -/
theorem Loaded.identityWeights {r₀ r : Run} (h : Loaded r₀ (Kernel.rowMajor identityKernel) r) :
    IdentityWeights r.state.w := by
  have hentries : ∀ i : Fin 9, (Kernel.rowMajor identityKernel)[i.val]'(by
      rw [Kernel.rowMajor_length]; exact i.isLt) = if i.val = 4 then 1 else 0 := by decide
  intro i
  rw [h.weights i (by rw [Kernel.rowMajor_length]; exact i.isLt)]
  exact hentries i

end Sys2Proof.Safety

/-! ### The statement -/

namespace Sys2Proof.Proofs

open Sys2Proof.Machine Sys2Proof.Safety

/-- With the identity weights an accepted pixel that completes a window shows the window's centre (R62). -/
theorem execPix_identity {s t : State} {d : Byte} (hw : IdentityWeights s.w) (h : execPix d s = .next t)
    (hv : t.outputValid = true) :
    acc t.lb t.w s.wptr = (window t.lb s.wptr 1 1).toNat ∧ t.pixelOut = window t.lb s.wptr 1 1 := by
  obtain ⟨-, -, -, rfl⟩ := execPix_next.1 h
  rw [pixelOutputs_outputValid] at hv
  rw [pixelOutputs_pixelOut _ hv, pixelOutputs_w, pixelOutputs_lb, State.acceptPixel_w, acc_of_identityWeights hw]
  exact ⟨rfl, narrow8_toNat _⟩

/-- Settles O26: one pixel by the datapath, the image by the cell of the grid, whose sum is its centre pixel. -/
theorem identityKernelReproducesTheInterior : Obligations.IdentityKernelReproducesTheInterior := by
  refine ⟨fun s t d hw h hv => ?_, fun r img i j hi hi' hj hj' => ?_⟩
  · obtain ⟨hacc, hout⟩ := execPix_identity hw h hv
    exact ⟨hacc, hacc ▸ Nat.le_of_lt_succ (window t.lb s.wptr 1 1).isLt, hout⟩
  · have hload := loaded_loadWeights r identityKernel
    have hstream := hload.streamed (Kernel.rowMajor_length _)
    have hcentre : (i.val - 1 + 2) * 16 + (j.val - 1 + 2) - 17 = i.val * 16 + j.val := by omega
    calc _ = some (narrow8 (windowSum _ (Image.rowMajor img) ((i.val - 1 + 2) * 16 + (j.val - 1 + 2)))) :=
          hstream.streamImage_cell img _ _
      _ = some (img[i.val])[j.val] := by
          rw [windowSum_of_identityWeights hload.identityWeights, hcentre, pixelAt_rowMajor, narrow8_toNat]

end Sys2Proof.Proofs

/-! PROOFS of the statements about the output controller (43_output_controller.md): when `output_valid` is raised, the
samples of a run, and their number and order in a stream. -/

/-! ### `output_valid` by the pixel's position (43_output_controller.md R65, R66) -/

namespace Sys2Proof.Machine

/-- Within the frame a pixel completes a window exactly where the centre of the window, one row up and one column to
the left, is no border pixel: the upper bounds `H − 2` and `W − 2` hold of every such centre (R65). -/
theorem completesWindow_iff_centre_interior {p : Nat} (hp : p < 256) :
    completesWindow p = true ↔
      (1 ≤ (p / 16 : Int) - 1 ∧ (p / 16 : Int) - 1 ≤ 16 - 2) ∧
        (1 ≤ (p % 16 : Int) - 1 ∧ (p % 16 : Int) - 1 ≤ 16 - 2) := by
  rw [completesWindow_iff]
  omega

/-- A defined state's operation that is no window-completing pixel leaves the flag low. -/
theorem exec_outputValid_low {i : Instr} {s t : State} (hs : s.undef = false) (h : exec i s = .next t)
    (hno : ¬ ((∃ d, i = .pix d) ∧ completesWindow s.n.val = true)) : t.outputValid = false :=
  Bool.eq_false_iff.2 (mt (exec_outputValid hs h).1 hno)

end Sys2Proof.Machine

/-! ### The records of a run (43_output_controller.md R71, 60_exceptions.md R83) -/

namespace Sys2Proof.Machine

/-- What the harness takes of a state, as the list it appends (R71). -/
theorem State.sample_toList (s : State) :
    s.sample.toList = if s.undef = false ∧ s.outputValid = true then [s.pixelOut] else [] := by
  cases hu : s.undef with
  | true => simp [State.sample_undef hu]
  | false => cases hv : s.outputValid <;> simp [State.sample_defined hu, hv]

/-- A cycle whose step answers a next state appends that state's sample. -/
theorem Run.cycle_of_step {r : Run} {x : StimWord} {t : State} (h : step (r.state.present x) = .next t) :
    r.cycle x = ⟨t, r.samples ++ t.sample.toList, r.faults⟩ := by
  unfold Run.cycle
  rw [h]

/-- The records of the run `r` stand at the front of those of `r'`. -/
structure Run.RecordsPrefix (r r' : Run) : Prop where
  faults : r.faults <+: r'.faults
  samples : r.samples <+: r'.samples

theorem Run.RecordsPrefix.refl (r : Run) : r.RecordsPrefix r := ⟨List.prefix_rfl, List.prefix_rfl⟩

theorem Run.RecordsPrefix.trans {r r' r'' : Run} (h : r.RecordsPrefix r') (h' : r'.RecordsPrefix r'') :
    r.RecordsPrefix r'' := ⟨h.faults.trans h'.faults, h.samples.trans h'.samples⟩

/-- One cycle appends a sample, or a violation, or nothing. -/
theorem Run.cycle_recordsPrefix (r : Run) (x : StimWord) : r.RecordsPrefix (r.cycle x) := by
  unfold Run.cycle
  split
  · exact ⟨List.prefix_rfl, List.prefix_append _ _⟩
  · exact ⟨List.prefix_append _ _, List.prefix_rfl⟩
  · exact .refl r

theorem Run.drive_recordsPrefix (r : Run) (ws : List StimWord) : r.RecordsPrefix (r.drive ws) := by
  induction ws generalizing r with
  | nil => exact .refl r
  | cons x ws ih => exact (r.cycle_recordsPrefix x).trans (ih (r.cycle x))

/-- A sample once taken keeps its number, whatever words follow. -/
theorem Run.drive_keeps_sample {r : Run} {m : Nat} {b : Byte} (h : r.samples[m]? = some b) (ws : List StimWord) :
    (r.drive ws).samples[m]? = some b := by
  obtain ⟨bs, hbs⟩ := (r.drive_recordsPrefix ws).samples
  rw [← hbs, List.getElem?_append_left (List.getElem?_eq_some_iff.1 h).1, h]

end Sys2Proof.Machine

/-! ### The number of results of a stream (43_output_controller.md R67, R68)

`Streamed` says what the samples are, and for that it needs the cursor law and the form of the line buffer. When a sample
is taken depends on the counters alone, so the counting here holds of every loaded engine. -/

namespace Sys2Proof.Safety

open Sys2Proof.Machine

/-- Since the run `r₀` a loaded engine has accepted `k` pixels: their results are counted and no violation was
recorded. -/
structure Counted (r₀ : Run) (k : Nat) (r : Run) : Prop where
  defined : r.state.undef = false
  loaded : r.state.wcnt.val = 9
  count : r.state.n.val = k
  samples : r.samples.length = r₀.samples.length + resultsAfter k
  faults : r.faults = r₀.faults

/-- A loaded engine before the first pixel. -/
theorem counted_start {r : Run} (hu : r.state.undef = false) (hw : r.state.wcnt.val = 9) (hn : r.state.n.val = 0) :
    Counted r 0 r := ⟨hu, hw, hn, rfl, rfl⟩

/-- Within the frame the next pixel is accepted. -/
theorem Counted.accepts {r₀ r : Run} {k : Nat} (h : Counted r₀ k r) (hk : k < 256) (d : Byte) :
    ∃ t, execPix d (r.state.present (encode (.pix d))) = .next t :=
  ⟨_, execPix_next.2 ⟨h.defined, h.loaded, h.count.trans_lt hk, rfl⟩⟩

/-- One `PIX` within the frame raises the flag exactly at a window, and the harness then takes what the pins show. -/
theorem Counted.pix_shows {r₀ r : Run} {k : Nat} (h : Counted r₀ k r) (hk : k < 256) (d : Byte) :
    (r.cycle (encode (.pix d))).state.outputValid = completesWindow k ∧
      (r.cycle (encode (.pix d))).samples =
        r.samples ++ if completesWindow k then [(r.cycle (encode (.pix d))).state.pixelOut] else [] := by
  obtain ⟨t, hpix⟩ := h.accepts hk d
  rw [Run.cycle_pix hpix, State.sample_toList]
  obtain ⟨-, -, -, rfl⟩ := execPix_next.1 hpix
  simp [h.defined, h.count]

/-- One `PIX` within the frame is counted, and its result where there is one. -/
theorem Counted.cycle_pix {r₀ r : Run} {k : Nat} (h : Counted r₀ k r) (hk : k < 256) (d : Byte) :
    Counted r₀ (k + 1) (r.cycle (encode (.pix d))) := by
  obtain ⟨t, hpix⟩ := h.accepts hk d
  have hcount := (execPix_advances hpix).2.trans (congrArg (· + 1) h.count)
  have hsamples : (r.cycle (encode (.pix d))).samples.length = r₀.samples.length + resultsAfter (k + 1) := by
    rw [(h.pix_shows hk d).2, List.length_append, h.samples, resultsAfter_succ, Nat.add_assoc]
    split <;> rfl
  rw [Run.cycle_pix hpix] at hsamples ⊢
  obtain ⟨-, -, -, rfl⟩ := execPix_next.1 hpix
  exact ⟨by simpa using h.defined, by simpa using h.loaded, hcount, hsamples, h.faults⟩

/-- A stream of pixels, up to a whole frame. -/
theorem Counted.drive_pix {r : Run} (h : Counted r 0 r) (px : List Byte) (hlen : px.length ≤ 256) :
    Counted r px.length (r.drive (pixWords px)) := by
  induction px using List.reverseRecOn with
  | nil => exact h
  | append_singleton px d ih =>
    rw [List.length_append, List.length_singleton] at hlen ⊢
    rw [pixWords, List.map_append, Run.drive_append]
    exact (ih (by omega)).cycle_pix (by omega) d

/-- The cycle of pixel `p` follows the stream of the pixels before it. -/
theorem drive_take_succ (r : Run) {px : List Byte} {p : Nat} (hp : p < px.length) :
    r.drive (pixWords (px.take (p + 1))) = (r.drive (pixWords (px.take p))).cycle (encode (.pix px[p])) := by
  rw [List.take_succ_eq_append_getElem hp, pixWords, List.map_append, Run.drive_append]
  rfl

/-- The stream goes on behind any of its pixels. -/
theorem drive_take_drop (r : Run) (px : List Byte) (k : Nat) :
    r.drive (pixWords px) = (r.drive (pixWords (px.take k))).drive (pixWords (px.drop k)) := by
  rw [← Run.drive_append, pixWords, pixWords, pixWords, ← List.map_append, List.take_append_drop]

/-- No result comes before pixel 34, the first with row and column 2 (R68, R69). -/
theorem resultsAfter_eq_zero {n : Nat} (hn : n ≤ 34) : resultsAfter n = 0 := by
  cases n with
  | zero => rfl
  | succ p =>
    rw [resultsAfter_pixel]
    split_ifs <;> omega

end Sys2Proof.Safety

/-! ### The statements -/

namespace Sys2Proof.Proofs

open Sys2Proof.Machine Sys2Proof.Safety

/-- Settles O24: the count before the pixel's cycle, the sample of that cycle, and that it keeps its number. -/
theorem resultsAreNumberedInRasterOrder : Obligations.ResultsAreNumberedInRasterOrder := by
  intro r px hu hw hn hlen p hp hr hc
  have hwin : completesWindow p = true := (completesWindow_iff p).2 ⟨hr, hc⟩
  have hlenp : (px.take p).length = p := List.length_take_of_le hp.le
  have hbefore := (counted_start hu hw hn).drive_pix (px.take p) (by omega)
  rw [hlenp] at hbefore
  have hnumber := hbefore.samples
  rw [resultsAfter_of_completesWindow hwin] at hnumber
  obtain ⟨hvalid, hsample⟩ := hbefore.pix_shows (by omega) px[p]
  rw [← drive_take_succ r hp] at hvalid hsample
  rw [if_pos hwin] at hsample
  refine ⟨hnumber, hvalid.trans hwin, ?_⟩
  rw [drive_take_drop r px (p + 1)]
  apply Run.drive_keeps_sample
  rw [hsample, ← hnumber, List.getElem?_concat_length]

/-- Settles O25: the counting invariant at the end of the stream, and the values of the running count. -/
theorem streamingGivesTheCountedResults : Obligations.StreamingGivesTheCountedResults := by
  refine ⟨fun r px hu hw hn hlen => ?_, fun n => resultsAfter_eq_zero, rfl, rfl, rfl⟩
  have hend := (counted_start hu hw hn).drive_pix px hlen
  exact ⟨hend.samples, hend.faults, hend.count⟩

/-- Settles O36: both records of a run stand at the front of those of every run that goes on from it. -/
theorem runRecordsAreNeverCleared : Obligations.RunRecordsAreNeverCleared := by
  intro r ws
  obtain ⟨⟨fs, hfs⟩, ⟨bs, hbs⟩⟩ := r.drive_recordsPrefix ws
  exact ⟨⟨fs, hfs.symm⟩, ⟨bs, hbs.symm⟩⟩

/-- Settles O22: an accepted pixel's flag is `completesWindow`, in both forms of R65. -/
theorem pixIsValidExactlyAtWindows : Obligations.PixIsValidExactlyAtWindows := by
  intro s d hu hw hn
  refine ⟨_, execPix_next.2 ⟨hu, hw, hn, rfl⟩, ?_, ?_⟩
  · rw [pixelOutputs_outputValid, completesWindow_iff]
  · rw [pixelOutputs_outputValid, completesWindow_iff_centre_interior hn]

/-- Settles O23: the reset value for `RST`, and for the rest that only a pixel at a window raises the flag. -/
theorem outputValidIsLowInEveryOtherCycle : Obligations.OutputValidIsLowInEveryOtherCycle := by
  refine ⟨fun s t h => ?_, fun s t d h => ?_, fun s t hs h => ?_, fun s t d hpos h => ?_⟩
  · rw [execRst_next.1 h, State.clear_outputValid]
  · exact exec_outputValid_low (execLdw_next.1 h).1 h (by simp)
  · exact exec_outputValid_low hs h (by simp)
  · refine exec_outputValid_low (execPix_next.1 h).1 h fun ⟨_, hwin⟩ => ?_
    have := (completesWindow_iff _).1 hwin
    omega

/-- Settles O39: the grid's cells by their sample numbers, and the sample of one cycle. -/
theorem streamImageReturnsTheRowMajorGrid : Obligations.StreamImageReturnsTheRowMajorGrid := by
  refine ⟨fun r img => ⟨rfl, fun m hm => ?_⟩, fun r x t h => ?_⟩
  · have hcell : m / 14 * 14 + m % 14 = m := Nat.div_add_mod' m 14
    calc _ = ((r.drive (streamImageWords img)).samples.drop r.samples.length)[m / 14 * 14 + m % 14]? :=
          outputGrid_get _ _ _
      _ = _ := by rw [hcell, List.getElem?_drop]
  · rw [Run.cycle_of_step h, State.sample_toList]

end Sys2Proof.Proofs

/-! PROOFS of the statements about reset, UNDEF, the weight load and the invariant of the defined states (10_state.md,
40_reset_idle.md, 41_weight_load.md). -/

/-! ### The reset values (10_state.md R28) -/

namespace Sys2Proof.Safety

open Sys2Proof.Machine

theorem atReset_reset : AtReset State.reset :=
  ⟨rfl, readWeight_zero, rfl, Memory.read_nil, rfl, rfl, rfl⟩

theorem atReset_clear (s : State) : AtReset s.clear :=
  ⟨rfl, readWeight_zero, rfl, Memory.read_nil, rfl, rfl, rfl⟩

/-! ### The invariant R29, operation by operation (10_state.md section 7) -/

/-- The reset values satisfy every clause. -/
theorem AtReset.engineInv {s : State} (h : AtReset s) (hlb : s.lb.wf = true) : EngineInv s := by
  obtain ⟨-, hw, -, hread, hn, hwptr, hvalid⟩ := h
  exact ⟨hlb, fun _ => by rw [hwptr, hn]; rfl, fun _ _ => hn, fun _ i _ => hw i, fun _ a _ => hread a,
    fun _ hv => by simp [hvalid] at hv⟩

/-- Of an UNDEF state the invariant says nothing but the form of the line buffer. -/
theorem engineInv_of_undef {s : State} (hu : s.undef = true) (hlb : s.lb.wf = true) : EngineInv s where
  lbForm := hlb
  cursor hdef := by simp [hu] at hdef
  loadFirst hdef := by simp [hu] at hdef
  unloadedZero hdef := by simp [hu] at hdef
  unwrittenZero hdef := by simp [hu] at hdef
  validOnlyAtWindow hdef := by simp [hu] at hdef

theorem engineInv_enterUndef (s : State) : EngineInv s.enterUndef :=
  engineInv_of_undef rfl (Memory.ofSlots_wf _)

/-- An idle cycle of a defined state lowers the flag and holds the rest (40_reset_idle.md R52). -/
theorem EngineInv.noResult {s : State} (h : EngineInv s) : EngineInv s.noResult where
  lbForm := h.lbForm
  cursor := h.cursor
  loadFirst := h.loadFirst
  unloadedZero := h.unloadedZero
  unwrittenZero := h.unwrittenZero
  validOnlyAtWindow _ hv := by simp at hv

theorem EngineInv.endCycle {s : State} (h : EngineInv s) : EngineInv s.endCycle :=
  ⟨h.lbForm, h.cursor, h.loadFirst, h.unloadedZero, h.unwrittenZero, h.validOnlyAtWindow⟩

/-- The weight just written is no longer one of those that must be 0, and while a load is legal no pixel has been
accepted (41_weight_load.md R54). -/
theorem EngineInv.after_ldw {s t : State} {d : Byte} (h : EngineInv s) (hldw : execLdw d s = .next t) :
    EngineInv t := by
  obtain ⟨hu, hw, rfl⟩ := execLdw_next.1 hldw
  have hcount : (countUp s.wcnt).val = s.wcnt.val + 1 := countUp_val hw
  refine ⟨h.lbForm, h.cursor, fun _ _ => h.loadFirst hu hw, fun _ i hi => ?_, h.unwrittenZero, fun _ hv => ?_⟩
  · simp only [State.noResult_wcnt, State.loadWeight_wcnt, hcount] at hi
    simp only [State.noResult_w, State.loadWeight_w, readWeight_writeWeight]
    rw [if_neg (by omega)]
    exact h.unloadedZero hu i (by omega)
  · simp at hv

/-- The slot the cursor names is slot `n`, the first of those that had to be 0, until the buffer is full; the weights
are all loaded, and the flag is that of the pixel's position (42_stream_convolve.md R58). -/
theorem EngineInv.after_pix {s t : State} {d : Byte} (h : EngineInv s) (hpix : execPix d s = .next t) :
    EngineInv t := by
  obtain ⟨hu, hw, -, ht⟩ := execPix_next.1 hpix
  have hcount : t.n.val = s.n.val + 1 := (execPix_advances hpix).2
  have hcursor : s.wptr.val = s.n.val % 35 := h.cursor hu
  have htw : t.wcnt.val = 9 := by simpa [ht] using hw
  refine ⟨execPix_lb hpix ▸ Memory.write_wf _ _ h.lbForm, CursorLaw.after_pix h.cursor hpix, fun _ hlt => ?_,
    fun _ i hi => ?_, fun _ a ha => ?_, fun _ hv => ⟨s.n.val, hcount, by simpa [ht] using hv⟩⟩
  · exact absurd htw hlt.ne
  · exact absurd (hi.trans_lt i.isLt) htw.not_lt
  · have ha35 : a.val < 35 := a.isLt
    have hne : a ≠ s.wptr := by rw [Ne, Fin.ext_iff]; omega
    rw [execPix_read h.lbForm hpix, if_neg hne]
    exact h.unwrittenZero hu a (by omega)

/-- Every operation keeps the invariant. -/
theorem EngineInv.after_exec {i : Instr} {s t : State} (h : EngineInv s) (hexec : exec i s = .next t) :
    EngineInv t := by
  cases i with
  | rst => exact execRst_next.1 hexec ▸ (atReset_clear s).engineInv Memory.wf_nil
  | ldw d => exact h.after_ldw hexec
  | pix d => exact h.after_pix hexec
  | nop =>
    obtain ⟨-, rfl⟩ | ⟨-, rfl⟩ := execNop_next.1 hexec
    · exact engineInv_enterUndef s
    · exact h.noResult

/-! ### The harness's fields (00_scope.md R4) -/

/-- No operation touches them. -/
theorem exec_sameHarness {i : Instr} {s t : State} (h : exec i s = .next t) : SameHarness s t := by
  cases i with
  | rst =>
    obtain rfl := execRst_next.1 h
    exact ⟨rfl, rfl⟩
  | ldw d =>
    obtain ⟨-, -, rfl⟩ := execLdw_next.1 h
    exact ⟨rfl, rfl⟩
  | pix d =>
    obtain ⟨-, -, -, rfl⟩ := execPix_next.1 h
    exact ⟨by simp, by simp⟩
  | nop =>
    obtain ⟨-, rfl⟩ | ⟨-, rfl⟩ := execNop_next.1 h
    · exact ⟨rfl, rfl⟩
    · exact ⟨rfl, rfl⟩

end Sys2Proof.Safety

/-! ### UNDEF (10_state.md R16) and the old outputs (R22) -/

namespace Sys2Proof.Machine

/-- Two states that agree on the fields the model adds to the engine. -/
structure SameModelFields (s s' : State) : Prop where
  draws : s.draws = s'.draws
  stimulus : s.stimulus = s'.stimulus
  cycle : s.cycle = s'.cycle

/-- A reset keeps no engine field. -/
theorem SameModelFields.clear_eq {s s' : State} (h : SameModelFields s s') : s.clear = s'.clear := by
  simp only [State.clear, h.draws, h.stimulus, h.cycle]

/-- Entering UNDEF keeps no engine field. -/
theorem SameModelFields.enterUndef_eq {s s' : State} (h : SameModelFields s s') : s.enterUndef = s'.enterUndef := by
  simp only [State.enterUndef, h.draws, h.stimulus, h.cycle]

/-- A violation records no engine field. -/
theorem SameModelFields.raise_eq {s s' : State} (h : SameModelFields s s')
    (why : Nat → Option StimWord → Fault) : raise why s = raise why s' := by
  simp only [raise, h.stimulus, h.cycle]

theorem execLdw_undef (d : Byte) {s : State} (h : s.undef = true) : execLdw d s = raise .notReset s := by
  rw [execLdw_eq, if_pos h]

theorem execPix_undef (d : Byte) {s : State} (h : s.undef = true) : execPix d s = raise .notReset s := by
  rw [execPix_eq, if_pos h]

theorem execNop_undef {s : State} (h : s.undef = true) : execNop s = .next s.enterUndef :=
  execNop_next.2 (.inl ⟨h, rfl⟩)

theorem execNop_defined {s : State} (h : s.undef = false) : execNop s = .next s.noResult :=
  execNop_next.2 (.inr ⟨h, rfl⟩)

/-- In UNDEF the answer of an operation depends on the model's own fields alone. -/
theorem SameModelFields.exec_eq {s s' : State} (h : SameModelFields s s') (hs : s.undef = true)
    (hs' : s'.undef = true) (i : Instr) : exec i s = exec i s' := by
  cases i with
  | rst => rw [exec_rst, exec_rst, execRst, execRst, h.clear_eq]
  | ldw d => rw [exec_ldw, exec_ldw, execLdw_undef d hs, execLdw_undef d hs', h.raise_eq]
  | pix d => rw [exec_pix, exec_pix, execPix_undef d hs, execPix_undef d hs', h.raise_eq]
  | nop => rw [exec_nop, exec_nop, execNop_undef hs, execNop_undef hs', h.enterUndef_eq]

/-- A step performs the operation of the word on the pins and goes on. -/
theorem step_eq {s : State} {x : StimWord} (h : s.fetch = some x) : step s = finishCycle (exec (decode x) s) := by
  rw [step, h]

/-- With no word left there is no cycle. -/
theorem step_end {s : State} (h : s.fetch = none) : step s = .refused .endOfRun := by
  rw [step, h]

/-- Of the operations an UNDEF state performs only `RST` makes it defined. -/
theorem exec_from_undef {i : Instr} {s t : State} (hs : s.undef = true) (h : exec i s = .next t) :
    t.undef = false ↔ i = .rst := by
  cases i with
  | rst =>
    obtain rfl := execRst_next.1 h
    simp
  | ldw d =>
    have hdef := (execLdw_next.1 h).1
    simp [hs] at hdef
  | pix d =>
    have hdef := (execPix_next.1 h).1
    simp [hs] at hdef
  | nop =>
    obtain ⟨-, rfl⟩ | ⟨hdef, -⟩ := execNop_next.1 h
    · simp
    · simp [hs] at hdef

end Sys2Proof.Machine

/-! ### What the old outputs and the draw counter can change (10_state.md R22, decision D12) -/

namespace Sys2Proof.Safety

open Sys2Proof.Machine

/-- Two states that may differ in the output pins and the counter of drawn values, and in nothing else. -/
structure SameButOutputs (s s' : State) : Prop where
  undef : s'.undef = s.undef
  w : s'.w = s.w
  wcnt : s'.wcnt = s.wcnt
  n : s'.n = s.n
  wptr : s'.wptr = s.wptr
  lb : s'.lb = s.lb
  harness : SameHarness s s'

/-- Two results that differ in the counter of drawn values at most, and in a `pixel_out` that is not valid. -/
structure SameResult (t t' : State) : Prop extends SameButOutputs t t' where
  outputValid : t'.outputValid = t.outputValid
  pixelOut : t.outputValid = true → t'.pixelOut = t.pixelOut

/-- Two answers of the same kind, with the same fault or the same result. -/
inductive SameAnswer : Result → Result → Prop where
  | next {t t' : State} (h : SameResult t t') : SameAnswer (.next t) (.next t')
  | fault (f : Fault) : SameAnswer (.fault f) (.fault f)

/-- Cycles without a result leave the flag low. -/
theorem SameButOutputs.noResult {s s' : State} (h : SameButOutputs s s') : SameResult s.noResult s'.noResult where
  undef := h.undef
  w := h.w
  wcnt := h.wcnt
  n := h.n
  wptr := h.wptr
  lb := h.lb
  harness := h.harness
  outputValid := rfl
  pixelOut hv := by simp at hv

theorem SameButOutputs.clear {s s' : State} (h : SameButOutputs s s') : SameResult s.clear s'.clear where
  undef := rfl
  w := rfl
  wcnt := rfl
  n := rfl
  wptr := rfl
  lb := rfl
  harness := h.harness
  outputValid := rfl
  pixelOut hv := by simp at hv

theorem SameButOutputs.loadWeight {s s' : State} (h : SameButOutputs s s') (d : Byte) :
    SameButOutputs (s.loadWeight d) (s'.loadWeight d) where
  undef := h.undef
  w := by simp [h.w, h.wcnt]
  wcnt := by simp [h.wcnt]
  n := h.n
  wptr := h.wptr
  lb := h.lb
  harness := h.harness

/-- The sample is the sum over the line buffer and the weights, which do not show the old outputs. -/
theorem SameButOutputs.pixelOutputs {s s' : State} (h : SameButOutputs s s') (d : Byte) :
    SameResult (pixelOutputs s (s.acceptPixel d)) (pixelOutputs s' (s'.acceptPixel d)) where
  undef := by simp [h.undef]
  w := by simp [h.w]
  wcnt := by simp [h.wcnt]
  n := by simp [h.n]
  wptr := by simp [h.wptr]
  lb := by simp [h.lb, h.wptr]
  harness := by simpa [SameHarness] using h.harness
  outputValid := by simp [h.n]
  pixelOut hv := by
    rw [pixelOutputs_outputValid] at hv
    rw [pixelOutputs_pixelOut _ hv, pixelOutputs_pixelOut _ (h.n ▸ hv)]
    simp [h.w, h.lb, h.wptr]

theorem SameButOutputs.raise {s s' : State} (h : SameButOutputs s s') (why : Nat → Option StimWord → Fault) :
    SameAnswer (raise why s) (raise why s') := by
  have hraise : Machine.raise why s' = Machine.raise why s := by
    simp only [Machine.raise, h.harness.1, h.harness.2]
  exact hraise ▸ .fault _

/-- In a defined state the guards of an operation and what it computes show neither the output pins nor the counter. -/
theorem SameButOutputs.exec {s s' : State} (h : SameButOutputs s s') (hs : s.undef = false) (i : Instr) :
    SameAnswer (exec i s) (exec i s') := by
  have hs' : s'.undef = false := h.undef.trans hs
  cases i with
  | rst => exact .next h.clear
  | ldw d =>
    rw [exec_ldw, exec_ldw, execLdw_eq, execLdw_eq, h.undef, h.wcnt, h.n]
    split_ifs
    · exact h.raise _
    · exact .next (h.loadWeight d).noResult
    · exact h.raise _
    · exact h.raise _
  | pix d =>
    rw [exec_pix, exec_pix, execPix_eq, execPix_eq, h.undef, h.wcnt, h.n]
    split_ifs
    · exact h.raise _
    · exact h.raise _
    · exact .next (h.pixelOutputs d)
    · exact h.raise _
  | nop =>
    rw [exec_nop, exec_nop, execNop_defined hs, execNop_defined hs']
    exact .next h.noResult

end Sys2Proof.Safety

/-! ### The weight load (41_weight_load.md R54, R55) -/

namespace Sys2Proof.Machine

/-- The byte becomes the weight of the load index, and the index moves on. -/
theorem execLdw_loads {d : Byte} {s t : State} (h : execLdw d s = .next t) :
    t.wcnt.val = s.wcnt.val + 1 ∧
      ∀ i : WeightIndex, readWeight t.w i = if i.val = s.wcnt.val then d else readWeight s.w i := by
  obtain ⟨-, hw, rfl⟩ := execLdw_next.1 h
  exact ⟨countUp_val hw, readWeight_writeWeight s.w s.wcnt d⟩

/-- With nine weights loaded every operation but `RST` leaves the weights, their count and definedness
(10_state.md R29 (e)). -/
theorem exec_keeps_loaded_weights {i : Instr} {s t : State} (hs : s.undef = false) (hw : s.wcnt.val = 9)
    (hi : i ≠ .rst) (h : exec i s = .next t) : t.undef = false ∧ t.w = s.w ∧ t.wcnt = s.wcnt := by
  cases i with
  | rst => exact absurd rfl hi
  | ldw d =>
    have hlt := (execLdw_next.1 h).2.1
    omega
  | pix d =>
    obtain ⟨-, -, -, rfl⟩ := execPix_next.1 h
    simpa using hs
  | nop =>
    rw [exec_nop, execNop_defined hs] at h
    cases h
    exact ⟨hs, rfl, rfl⟩

end Sys2Proof.Machine

namespace Sys2Proof.Safety

open Sys2Proof.Machine

/-- Coefficient `3·r + c` in load order is the matrix entry in row `r`, column `c` (20_memory.md R33). -/
theorem rowMajor_weightIndex (m : Kernel) (r c : Fin Config.K)
    (h : (weightIndex r c).val < (Kernel.rowMajor m).length) :
    (Kernel.rowMajor m)[(weightIndex r c).val] = (m[r.val])[c.val] := by
  simp only [Kernel.rowMajor_eq_flatten, Vector.getElem_toList, Kernel.flatten_weightIndex]

/-- Since the run `r₀`, before any pixel, the coefficients `ds` have been loaded: they stand in the first registers and
no violation was recorded. (`Loaded` says more, after a reset: what the line buffer holds.) -/
structure WeightsLoaded (r₀ : Run) (ds : List Byte) (r : Run) : Prop where
  defined : r.state.undef = false
  loads : r.state.wcnt.val = ds.length
  pixels : r.state.n.val = 0
  weights : ∀ (i : WeightIndex) (h : i.val < ds.length), readWeight r.state.w i = ds[i.val]
  faults : r.faults = r₀.faults

/-- One `LDW` puts its coefficient behind those loaded. -/
theorem WeightsLoaded.cycle_ldw {r₀ r : Run} {ds : List Byte} {d : Byte} (h : WeightsLoaded r₀ ds r)
    (hlen : ds.length < 9) : WeightsLoaded r₀ (ds ++ [d]) (r.cycle (encode (.ldw d))) := by
  have hroom : r.state.wcnt.val < 9 := h.loads ▸ hlen
  obtain ⟨t, hldw⟩ : ∃ t, execLdw d (r.state.present (encode (.ldw d))) = .next t :=
    ⟨_, execLdw_next.2 ⟨h.defined, hroom, rfl⟩⟩
  obtain ⟨hcount, hweights⟩ := execLdw_loads hldw
  rw [State.present_wcnt, h.loads] at hcount hweights
  have hheld := execLdw_holds_position hldw
  rw [Run.cycle_ldw hldw]
  refine ⟨?_, ?_, ?_, fun i hi => ?_, h.faults⟩
  · obtain ⟨-, -, rfl⟩ := execLdw_next.1 hldw
    exact h.defined
  · rw [List.length_append, List.length_singleton]
    exact hcount
  · rw [State.endCycle_n, hheld.2]
    exact h.pixels
  · rw [State.endCycle_w, hweights]
    rw [List.length_append, List.length_singleton] at hi
    by_cases hlast : i.val = ds.length
    · simp [hlast]
    · rw [if_neg hlast, List.getElem_append_left (by omega)]
      exact h.weights i (by omega)

/-- The coefficients of a load, one after another. -/
theorem WeightsLoaded.drive_ldw {r₀ r : Run} (h : WeightsLoaded r₀ [] r) (ds : List Byte) (hlen : ds.length ≤ 9) :
    WeightsLoaded r₀ ds (r.drive (ds.map fun d => encode (.ldw d))) := by
  induction ds using List.reverseRecOn with
  | nil => exact h
  | append_singleton ds d ih =>
    rw [List.length_append, List.length_singleton] at hlen
    rw [List.map_append, Run.drive_append]
    exact (ih (by omega)).cycle_ldw (by omega)

/-- After `loadWeights(m)` the coefficients stand in load order. -/
theorem WeightsLoaded.drive_load {r₀ r : Run} (h : WeightsLoaded r₀ [] r) (m : Kernel) :
    WeightsLoaded r₀ (Kernel.rowMajor m) (r.drive (loadWeightsWords m)) :=
  h.drive_ldw _ (Kernel.rowMajor_length m).le

/-- The first `k` words of `loadWeights(m)` load the first `k` coefficients. -/
theorem WeightsLoaded.drive_take {r₀ r : Run} (h : WeightsLoaded r₀ [] r) (m : Kernel) (k : Nat) :
    WeightsLoaded r₀ ((Kernel.rowMajor m).take k) (r.drive ((loadWeightsWords m).take k)) := by
  rw [loadWeightsWords, ← List.map_take]
  exact h.drive_ldw _ (by rw [List.length_take, Kernel.rowMajor_length]; omega)

/-- After a full load the check of the registers succeeds (30_encoding.md R47). -/
theorem WeightsLoaded.eq_rowMajor {r₀ r : Run} {m : Kernel} (h : WeightsLoaded r₀ (Kernel.rowMajor m) r) :
    r.state.w.toList = Kernel.rowMajor m := by
  refine (weights_eq_rowMajor_iff _ m).2 fun i j => ?_
  rw [h.weights (weightIndex i j) ((weightIndex i j).isLt.trans_eq (Kernel.rowMajor_length m).symm),
    rowMajor_weightIndex]

/-- A pixel of a stream leaves the weights. -/
theorem Counted.cycle_pix_w {r₀ r : Run} {k : Nat} (h : Counted r₀ k r) (hk : k < 256) (d : Byte) :
    (r.cycle (encode (.pix d))).state.w = r.state.w := by
  obtain ⟨t, hpix⟩ := h.accepts hk d
  rw [Run.cycle_pix hpix]
  exact (exec_keeps_loaded_weights (s := r.state.present _) (i := .pix d) h.defined h.loaded (by simp) hpix).2.1

/-- A stream of pixels, up to a whole frame, leaves the weights. -/
theorem Counted.drive_pix_w {r : Run} (h : Counted r 0 r) (px : List Byte) (hlen : px.length ≤ 256) :
    (r.drive (pixWords px)).state.w = r.state.w := by
  induction px using List.reverseRecOn with
  | nil => rfl
  | append_singleton px d ih =>
    rw [List.length_append, List.length_singleton] at hlen
    rw [pixWords, List.map_append, Run.drive_append]
    exact ((h.drive_pix px (by omega)).cycle_pix_w (by omega) d).trans (ih (by omega))

end Sys2Proof.Safety

/-! ### Words placed by number (30_encoding.md R40) -/

namespace Sys2Proof

/-- The table reads an operation from a number exactly when the number is a stimulus word that names it. -/
theorem decodeTableWord_some {nbits w : Nat} {i : Instr} :
    decodeTableWord nbits w = some i ↔ ∃ x, stimWordOfNat? w = some x ∧ decode x = i := by
  unfold decodeTableWord decodeNat
  cases stimWordOfNat? w <;> simp

/-- The word placed is the one on the pins. -/
theorem Machine.State.withFetchWord_fetch (s : Machine.State) (nbits : Nat) {w : Nat} {x : StimWord}
    (h : stimWordOfNat? w = some x) : (s.withFetchWord nbits w).fetch = some x := by
  rw [Machine.State.withFetchWord, h]
  rfl

end Sys2Proof

/-! ### The phases (10_state.md R24) -/

namespace Sys2Proof.Machine

theorem State.phase_eq (s : State) : s.phase =
    if s.undef then .undef else if s.wcnt.val < 9 then .loading else if s.n.val < 256 then .streaming
    else .frameDone := rfl

/-- The four rows of the legality table, by the fields that make them. -/
theorem State.phase_cases (s : State) :
    (s.undef = true ∧ s.phase = .undef) ∨
    (s.undef = false ∧ s.wcnt.val < 9 ∧ s.phase = .loading) ∨
    (s.undef = false ∧ s.wcnt.val = 9 ∧ s.n.val < 256 ∧ s.phase = .streaming) ∨
    (s.undef = false ∧ s.wcnt.val = 9 ∧ s.n.val = 256 ∧ s.phase = .frameDone) := by
  have hw : s.wcnt.val < 10 := s.wcnt.isLt
  have hn : s.n.val < 257 := s.n.isLt
  rw [State.phase_eq]
  split_ifs with hundef hload hstream
  · exact .inl ⟨hundef, rfl⟩
  · exact .inr (.inl ⟨Bool.eq_false_iff.2 hundef, hload, rfl⟩)
  · exact .inr (.inr (.inl ⟨Bool.eq_false_iff.2 hundef, by omega, hstream, rfl⟩))
  · exact .inr (.inr (.inr ⟨Bool.eq_false_iff.2 hundef, by omega, by omega, rfl⟩))

/-! ### A run in UNDEF (60_exceptions.md R72, R83) -/

/-- A cycle whose step is a violation: UNDEF, and the violation is recorded. -/
theorem Run.cycle_of_fault {r : Run} {x : StimWord} {f : Fault} (h : step (r.state.present x) = .fault f) :
    r.cycle x = ⟨(r.state.present x).afterViolation, r.samples, r.faults ++ [f]⟩ := by
  unfold Run.cycle
  rw [h]

@[simp] theorem State.afterViolation_undef (s : State) : s.afterViolation.undef = true := rfl

/-- An idle cycle in UNDEF. -/
theorem Run.cycle_nop_undef {r : Run} {x : StimWord} (hu : r.state.undef = true) (hx : decode x = .nop) :
    r.cycle x = ⟨(r.state.present x).enterUndef.endCycle, r.samples, r.faults⟩ := by
  have hu' : (r.state.present x).undef = true := hu
  rw [Run.cycle_next (by rw [hx, exec_nop, execNop_undef hu']), State.sample_undef rfl]
  simp

/-- A load or a pixel in UNDEF is violation 1 (R73). -/
theorem Run.cycle_data_undef {r : Run} {x : StimWord} {d : Byte} (hu : r.state.undef = true)
    (hx : decode x = .ldw d ∨ decode x = .pix d) :
    r.cycle x = ⟨(r.state.present x).afterViolation, r.samples, r.faults ++ [.notReset r.state.cycle (some x)]⟩ := by
  have hu' : (r.state.present x).undef = true := hu
  apply Run.cycle_fault
  obtain hx | hx := hx
  · rw [hx, exec_ldw, execLdw_undef d hu']
    rfl
  · rw [hx, exec_pix, execPix_undef d hu']
    rfl

/-- A reset, from any state. -/
theorem Run.cycle_rst {r : Run} {x : StimWord} (hx : decode x = .rst) :
    r.cycle x = ⟨(r.state.present x).clear.endCycle, r.samples, r.faults⟩ := by
  rw [Run.cycle_next (by rw [hx, exec_rst, execRst]), State.sample_defined rfl]
  simp

/-- Only a reset makes an UNDEF run defined. -/
theorem Run.cycle_from_undef {r : Run} {x : StimWord} (hu : r.state.undef = true) :
    (r.cycle x).state.undef = false ↔ decode x = .rst := by
  cases hx : decode x with
  | rst => simp [Run.cycle_rst hx]
  | ldw d => simp [Run.cycle_data_undef hu (.inl hx)]
  | pix d => simp [Run.cycle_data_undef hu (.inr hx)]
  | nop => simp [Run.cycle_nop_undef hu hx]

end Sys2Proof.Machine

/-! ### The statements -/

namespace Sys2Proof.Proofs

open Sys2Proof.Machine Sys2Proof.Safety

/-- Settles O30: the invariant through the operation of the word presented, then through the end of the cycle. -/
theorem stepKeepsTheEngineInvariant : Obligations.StepKeepsTheEngineInvariant := by
  intro s t h hstep
  obtain ⟨x, -, u, hexec, rfl⟩ := step_next.1 hstep
  exact (h.after_exec hexec).endCycle

/-- Settles O7: the operations answer alike on states that differ in the outputs and the counter only. -/
theorem resultsIgnoreOldOutputsAndDraws : Obligations.ResultsIgnoreOldOutputsAndDraws := by
  intro i s b v k hs
  have hsame : SameButOutputs s { s with outputValid := b, pixelOut := v, draws := k } :=
    ⟨rfl, rfl, rfl, rfl, rfl, rfl, rfl, rfl⟩
  have halike := hsame.exec hs i
  generalize exec i s = a, exec i { s with outputValid := b, pixelOut := v, draws := k } = a' at halike ⊢
  cases halike with
  | next h =>
    exact ⟨h.undef, h.w, h.wcnt, h.n, h.wptr, h.lb, h.outputValid, h.pixelOut, h.harness⟩
  | fault f => rfl

/-- Settles O31: the reset values, and an UNDEF state with its line buffer in form. -/
theorem engineInvariantHoldsAtResetAndPowerOn : Obligations.EngineInvariantHoldsAtResetAndPowerOn :=
  ⟨atReset_reset.engineInv State.reset_lb_wf, engineInv_enterUndef State.reset, rfl⟩

/-- Settles O10: the load word by word, then a stream that leaves the weights. -/
theorem loadedWeightsEqualTheMatrixAndPersist : Obligations.LoadedWeightsEqualTheMatrixAndPersist := by
  intro r m hu hw hn
  have hstart : WeightsLoaded r [] r := ⟨hu, hw, hn, fun _ h => absurd h (Nat.not_lt_zero _), rfl⟩
  refine ⟨fun k hk => ?_, fun px hlen => ?_⟩
  · have hk' := hstart.drive_take m k
    have hlen : ((Kernel.rowMajor m).take k).length = k := by
      rw [List.length_take, Kernel.rowMajor_length, Nat.min_eq_left hk]
    refine ⟨hk'.loads.trans hlen, fun i j hij => ?_⟩
    rw [hk'.weights (weightIndex i j) (hlen.symm ▸ hij), List.getElem_take,
      rowMajor_weightIndex]
  · have hload := hstart.drive_load m
    have hcount := counted_start hload.defined (hload.loads.trans (Kernel.rowMajor_length m)) hload.pixels
    have hend := hcount.drive_pix px hlen
    rw [Run.drive_append]
    refine ⟨?_, hend.faults.trans hload.faults⟩
    rw [weightsEqual_defined m hend.defined, hcount.drive_pix_w px hlen, hload.eq_rowMajor, beq_self_eq_true]

/-- Settles O11: the operation of the word presented, which is no reset. -/
theorem weightsAreImmutableOnceLoaded : Obligations.WeightsAreImmutableOnceLoaded := by
  intro s t x hs hw hfetch hx h
  obtain ⟨y, hy, u, hexec, rfl⟩ := step_next.1 h
  obtain rfl : x = y := Option.some.inj (hfetch.symm.trans hy)
  exact exec_keeps_loaded_weights (t := u) hs hw hx hexec

/-- Settles O28: the table column by column, each cell by the fields that make its phase. -/
theorem execFollowsTheLegalityTable : Obligations.ExecFollowsTheLegalityTable := by
  intro i s
  cases i with
  | rst => exact ⟨_, execRst_next.2 rfl, rfl⟩
  | ldw d =>
    obtain ⟨hu, hphase⟩ | ⟨hu, hw, hphase⟩ | ⟨hu, hw, hn, hphase⟩ | ⟨hu, hw, hn, hphase⟩ := s.phase_cases
    · rw [hphase]
      exact ⟨_, execLdw_fault.2 (.inl ⟨hu, rfl⟩), rfl, rfl, rfl⟩
    · rw [hphase]
      exact ⟨_, execLdw_next.2 ⟨hu, hw, rfl⟩, hu⟩
    · by_cases hzero : s.n.val = 0
      · rw [hphase, hzero]
        exact ⟨_, execLdw_fault.2 (.inr (.inl ⟨hu, hw, hzero, rfl⟩)), rfl, rfl, rfl⟩
      · simp only [hphase, legality, hzero, if_false]
        exact ⟨_, execLdw_fault.2 (.inr (.inr ⟨hu, hw, hzero, rfl⟩)), rfl, rfl, rfl⟩
    · rw [hphase]
      exact ⟨_, execLdw_fault.2 (.inr (.inr ⟨hu, hw, by omega, rfl⟩)), rfl, rfl, rfl⟩
  | pix d =>
    obtain ⟨hu, hphase⟩ | ⟨hu, hw, hphase⟩ | ⟨hu, hw, hn, hphase⟩ | ⟨hu, hw, hn, hphase⟩ := s.phase_cases
    · rw [hphase]
      exact ⟨_, execPix_fault.2 (.inl ⟨hu, rfl⟩), rfl, rfl, rfl⟩
    · rw [hphase]
      exact ⟨_, execPix_fault.2 (.inr (.inl ⟨hu, hw, rfl⟩)), rfl, rfl, rfl⟩
    · rw [hphase]
      exact ⟨_, execPix_next.2 ⟨hu, hw, hn, rfl⟩, by simpa using hu⟩
    · rw [hphase]
      exact ⟨_, execPix_fault.2 (.inr (.inr ⟨hu, hw, hn, rfl⟩)), rfl, rfl, rfl⟩
  | nop =>
    obtain ⟨hu, hphase⟩ | ⟨hu, -, hphase⟩ | ⟨hu, -, -, hphase⟩ | ⟨hu, -, -, hphase⟩ := s.phase_cases
    · rw [hphase]
      exact ⟨_, execNop_undef hu, rfl⟩
    all_goals
      rw [hphase]
      exact ⟨_, execNop_defined hu, hu⟩

/-- Settles O37: each clause by what a cycle of a run does with the operation of its word. -/
theorem resetIsTheWayBackFromAViolation : Obligations.ResetIsTheWayBackFromAViolation := by
  refine ⟨fun r x f h => ?_, fun r x hu hx => ?_, fun r x d hu hx => ?_, fun r x hu => Run.cycle_from_undef hu,
    fun r x hx => ?_⟩
  · rw [Run.cycle_of_fault h]
    exact ⟨rfl, rfl, rfl⟩
  · rw [Run.cycle_nop_undef hu hx]
    exact ⟨rfl, rfl, rfl⟩
  · rw [Run.cycle_data_undef hu hx]
    exact ⟨rfl, _, rfl, rfl⟩
  · rw [Run.cycle_rst hx]
    exact ⟨atReset_clear (r.state.present x), rfl⟩

/-- Settles O1. -/
theorem resetStateHoldsTheResetValues : Obligations.ResetStateHoldsTheResetValues :=
  ⟨atReset_reset, State.reset_lb_wf⟩

/-- Settles O2: the state cleared. -/
theorem rstResetsFromEveryState : Obligations.RstResetsFromEveryState :=
  fun s => ⟨s.clear, execRst_next.2 rfl, atReset_clear s, Memory.wf_nil, rfl, rfl⟩

/-- Settles O3: the state with its result taken away. -/
theorem nopHoldsADefinedState : Obligations.NopHoldsADefinedState :=
  fun s hs => ⟨s.noResult, execNop_defined hs, hs, rfl, rfl, rfl, rfl, rfl, rfl, rfl, rfl⟩

/-- Settles O4: a fresh UNDEF state. -/
theorem nopInUndefStaysUndef : Obligations.NopInUndefStaysUndef :=
  fun s hs => ⟨s.enterUndef, execNop_undef hs, rfl, rfl, rfl⟩

/-- Settles O5: the same word selects the same operation, whose answer is the same. -/
theorem undefFieldsAreNeverRead : Obligations.UndefFieldsAreNeverRead := by
  intro s s' hs hs' hdraws hstim hcycle
  have hsame : SameModelFields s s' := ⟨hdraws, hstim, hcycle⟩
  have hfetch' : s'.fetch = s.fetch := congrArg List.head? hstim.symm
  cases hfetch : s.fetch with
  | none => rw [step_end hfetch, step_end (hfetch'.trans hfetch)]
  | some x => rw [step_eq hfetch, step_eq (hfetch'.trans hfetch), hsame.exec_eq hs hs']

/-- Settles O6: the operations that answer a next state in UNDEF are `RST` and `NOP`. -/
theorem onlyRstLeavesUndef : Obligations.OnlyRstLeavesUndef :=
  fun _ _ _ hs h => exec_from_undef hs h

/-- Settles O8: the load with the count and the weights it leaves. -/
theorem ldwLoadsTheNextWeight : Obligations.LdwLoadsTheNextWeight := by
  intro s d hs hw
  have h : execLdw d s = .next (s.loadWeight d).noResult := execLdw_next.2 ⟨hs, hw, rfl⟩
  obtain ⟨hcount, hweights⟩ := execLdw_loads h
  exact ⟨_, h, hs, hweights, hcount, rfl, rfl, rfl, rfl, rfl, rfl⟩

/-- Settles O9: the three conditions under which `LDW` faults. -/
theorem ldwViolations : Obligations.LdwViolations := by
  refine fun s d => ⟨fun hu => ?_, fun hu hw hn => ?_, fun hu hw hn => ?_⟩
  · exact execLdw_fault.2 (.inl ⟨hu, rfl⟩)
  · exact execLdw_fault.2 (.inr (.inl ⟨hu, hw, hn, rfl⟩))
  · exact execLdw_fault.2 (.inr (.inr ⟨hu, hw, Nat.one_le_iff_ne_zero.1 hn, rfl⟩))

/-- Settles O13: the three conditions under which `PIX` faults. -/
theorem pixViolations : Obligations.PixViolations := by
  refine fun s d => ⟨fun hu => ?_, fun hu hw => ?_, fun hu hw hn => ?_⟩
  · exact execPix_fault.2 (.inl ⟨hu, rfl⟩)
  · exact execPix_fault.2 (.inr (.inl ⟨hu, hw, rfl⟩))
  · exact execPix_fault.2 (.inr (.inr ⟨hu, hw, hn, rfl⟩))

/-- Settles O32. -/
theorem engineLeavesTheHarnessAlone : Obligations.EngineLeavesTheHarnessAlone :=
  fun _ _ _ h => exec_sameHarness h

/-- Settles O33: a next state goes on from the harness's fields, which the operation left alone. -/
theorem stepRunsTheDecodedOperation : Obligations.StepRunsTheDecodedOperation := by
  intro s x rest i hstim hx
  have hfetch : s.fetch = some x := congrArg List.head? hstim
  rw [step_eq hfetch, hx]
  cases hexec : exec i s with
  | next t =>
    obtain ⟨hstim', hcycle'⟩ := exec_sameHarness hexec
    simp [finishCycle, State.endCycle, hstim', hcycle', hstim]
  | fault f => rfl
  | refused e => rfl

/-- Settles O34. -/
theorem stepRefusesAtTheEndOfTheRun : Obligations.StepRefusesAtTheEndOfTheRun :=
  fun _ hstim => step_end (congrArg List.head? hstim)

/-- Settles O35: a number that decodes is a stimulus word, and that word is presented. -/
theorem placedWordIsTheOneRun : Obligations.PlacedWordIsTheOneRun := by
  intro s nbits w i h
  obtain ⟨x, hx, rfl⟩ := decodeTableWord_some.1 h
  exact step_eq (State.withFetchWord_fetch s nbits hx)

end Sys2Proof.Proofs

/-! PROOFS of the statements about the encoding (30_encoding.md): the pins, the decoder, the opcode table, the driver
operations and the assembler. -/

/-! ### The stimulus word by its pins (30_encoding.md R40) -/

namespace Sys2Proof

theorem Inputs.toWord_toNat (p : Inputs) : p.toWord.toNat =
    p.reset.toNat * 1024 + p.setWeightsMode.toNat * 512 + p.inputValid.toNat * 256 + p.pixelIn.toNat := by
  have hd : p.pixelIn.toNat < 2 ^ 8 := p.pixelIn.isLt
  have hv : p.inputValid.toNat < 2 ^ 1 := p.inputValid.toNat_lt
  have hs : p.setWeightsMode.toNat < 2 ^ 1 := p.setWeightsMode.toNat_lt
  simp only [Inputs.toWord, BitVec.toNat_append, BitVec.toNat_ofBool]
  rw [← Nat.shiftLeft_add_eq_or_of_lt hs, ← Nat.shiftLeft_add_eq_or_of_lt hv, ← Nat.shiftLeft_add_eq_or_of_lt hd]
  omega

@[simp] theorem Inputs.ofWord_toWord (p : Inputs) : Inputs.ofWord p.toWord = p := by
  simp only [Inputs.ofWord, Inputs.toWord, BitVec.getLsbD_append, BitVec.extractLsb'_append_eq_right]
  simp

@[simp] theorem Inputs.toWord_ofWord (x : StimWord) : (Inputs.ofWord x).toWord = x := by
  have hx : x.toNat < 2048 := x.isLt
  apply BitVec.eq_of_toNat_eq
  rw [Inputs.toWord_toNat]
  simp only [Inputs.ofWord, BitVec.getLsbD, Nat.toNat_testBit, BitVec.extractLsb'_toNat]
  omega

theorem Inputs.toWord_inj {p q : Inputs} : p.toWord = q.toWord ↔ p = q :=
  ⟨fun h => by rw [← p.ofWord_toWord, h, q.ofWord_toWord], congrArg _⟩

@[simp] theorem decode_toWord (p : Inputs) : decode p.toWord = p.operation :=
  congrArg Inputs.operation p.ofWord_toWord

/-- The pins that two stimuli both assert. -/
def Inputs.and (p q : Inputs) : Inputs :=
  ⟨p.reset && q.reset, p.setWeightsMode && q.setWeightsMode, p.inputValid && q.inputValid, p.pixelIn &&& q.pixelIn⟩

theorem Inputs.toWord_and (p q : Inputs) : p.toWord &&& q.toWord = (p.and q).toWord := by
  refine BitVec.and_append.trans ?_
  rw [Inputs.toWord]
  simp only [BitVec.and_append, BitVec.ofBool_and_ofBool, Inputs.and]

/-! ### The pins of an operation (R42, R43) -/

/-- The pins of the canonical word of an operation. -/
def Instr.pins : Instr → Inputs
  | .rst => ⟨true, false, false, 0⟩
  | .ldw d => ⟨false, true, false, d⟩
  | .pix d => ⟨false, false, true, d⟩
  | .nop => ⟨false, false, false, 0⟩

/-- The pins an operation uses: its controls down to the one that decides, and its operand. -/
def Instr.usedPins : Instr → Inputs
  | .rst => ⟨true, false, false, 0⟩
  | .ldw _ => ⟨true, true, false, 0xFF⟩
  | .pix _ => ⟨true, true, true, 0xFF⟩
  | .nop => ⟨true, true, true, 0⟩

theorem encode_eq_toWord (i : Instr) : encode i = i.pins.toWord := by
  apply BitVec.eq_of_toNat_eq
  rw [Inputs.toWord_toNat]
  cases i with
  | rst => rfl
  | ldw d =>
    have hd : d.toNat < 256 := d.isLt
    simp only [encode, Instr.pins, Bool.toNat_true, Bool.toNat_false]
    bv_omega
  | pix d =>
    have hd : d.toNat < 256 := d.isLt
    simp only [encode, Instr.pins, Bool.toNat_true, Bool.toNat_false]
    bv_omega
  | nop => rfl

theorem usedBits_eq_toWord (i : Instr) : Safety.usedBits i = i.usedPins.toWord := by
  apply BitVec.eq_of_toNat_eq
  rw [Inputs.toWord_toNat]
  cases i <;> simp [Safety.usedBits, Instr.usedPins]

theorem byte_and_ones (d : Byte) : d &&& 0xFF = d := BitVec.and_allOnes

/-- What the pins used must be, operation by operation: the priority of the controls (R42). -/
theorem Inputs.and_usedPins_iff (p : Inputs) (i : Instr) : p.and i.usedPins = i.pins ↔
    match i with
    | .rst => p.reset = true
    | .ldw d => p.reset = false ∧ p.setWeightsMode = true ∧ p.pixelIn = d
    | .pix d => p.reset = false ∧ p.setWeightsMode = false ∧ p.inputValid = true ∧ p.pixelIn = d
    | .nop => p.reset = false ∧ p.setWeightsMode = false ∧ p.inputValid = false := by
  have hbyte : p.pixelIn &&& 255#8 = p.pixelIn := byte_and_ones _
  cases i <;> simp [Inputs.and, Instr.usedPins, Instr.pins, hbyte]

theorem Inputs.operation_eq_iff (p : Inputs) (i : Instr) : p.operation = i ↔ p.and i.usedPins = i.pins := by
  rw [p.and_usedPins_iff]
  unfold Inputs.operation
  split_ifs with hreset hload hpixel
  · cases i <;> simp [hreset]
  · cases i <;> simp [hreset, hload]
  · cases i <;> simp [hreset, hload, hpixel]
  · cases i <;> simp [hreset, hload, hpixel]

/-- A word names an operation exactly when it has the canonical word's bits where the operation uses them. -/
theorem decode_eq_iff (x : StimWord) (i : Instr) : decode x = i ↔ x &&& Safety.usedBits i = encode i := by
  obtain ⟨p, rfl⟩ : ∃ p : Inputs, p.toWord = x := ⟨_, Inputs.toWord_ofWord x⟩
  rw [decode_toWord, usedBits_eq_toWord, encode_eq_toWord, Inputs.toWord_and, Inputs.toWord_inj, p.operation_eq_iff]

/-- Every operation is read back from its canonical word. -/
theorem decode_encode (i : Instr) : decode (encode i) = i := by
  rw [encode_eq_toWord, decode_toWord]
  cases i <;> rfl

/-! ### The opcode table (R42) -/

/-- The control pins of a stimulus, the data low. -/
def Inputs.controls (p : Inputs) : Inputs := { p with pixelIn := 0 }

/-- A row looks at the controls its operation uses. -/
theorem row_mask_eq (i : Instr) : i.row.mask = i.usedPins.controls.toWord := by
  apply BitVec.eq_of_toNat_eq
  rw [Inputs.toWord_toNat]
  cases i <;> simp [Instr.row, Inputs.controls, Instr.usedPins]

/-- A row wants the controls of its operation's canonical word. -/
theorem row_pattern_eq (i : Instr) : i.row.pattern = i.pins.controls.toWord := by
  apply BitVec.eq_of_toNat_eq
  rw [Inputs.toWord_toNat]
  cases i <;> simp [Instr.row, Inputs.controls, Instr.pins]

/-- What the controls must be, operation by operation. -/
theorem Inputs.and_controls_iff (p : Inputs) (i : Instr) : p.and i.usedPins.controls = i.pins.controls ↔
    match i with
    | .rst => p.reset = true
    | .ldw _ => p.reset = false ∧ p.setWeightsMode = true
    | .pix _ => p.reset = false ∧ p.setWeightsMode = false ∧ p.inputValid = true
    | .nop => p.reset = false ∧ p.setWeightsMode = false ∧ p.inputValid = false := by
  cases i <;> simp [Inputs.and, Inputs.controls, Instr.usedPins, Instr.pins]

/-- The row of an operation selects the stimuli that name this operation, with any operand. -/
theorem row_selects_toWord (i : Instr) (p : Inputs) :
    i.row.selects p.toWord = true ↔ i.row = p.operation.row := by
  rw [OpcodeRow.selects, beq_iff_eq, row_mask_eq, row_pattern_eq, Inputs.toWord_and, Inputs.toWord_inj,
    p.and_controls_iff]
  unfold Inputs.operation
  split_ifs with hreset hload hpixel
  · cases i <;> simp [hreset, Instr.row]
  · cases i <;> simp [hreset, hload, Instr.row]
  · cases i <;> simp [hreset, hload, hpixel, Instr.row]
  · cases i <;> simp [hreset, hload, hpixel, Instr.row]

theorem row_selects_iff (i : Instr) (x : StimWord) : i.row.selects x = true ↔ i.row = (decode x).row := by
  have hrow := row_selects_toWord i (Inputs.ofWord x)
  rwa [Inputs.toWord_ofWord] at hrow

/-- The table holds the rows of the operations. -/
theorem mem_opcodeRows {r : OpcodeRow} (h : r ∈ opcodeRows) : ∃ i : Instr, r = i.row := by
  simp only [opcodeRows, List.mem_cons, List.not_mem_nil, or_false] at h
  rcases h with rfl | rfl | rfl | rfl <;> exact ⟨_, rfl⟩

/-- The table holds the row of each operation once. -/
theorem opcodeRows_filter_row (i : Instr) : opcodeRows.filter (fun r => r == i.row) = [i.row] := by
  cases i <;> rfl

/-- Exactly one row selects a word, that of its operation. -/
theorem opcodeRows_filter_selects (x : StimWord) :
    opcodeRows.filter (fun r => r.selects x) = [(decode x).row] := by
  rw [← opcodeRows_filter_row]
  refine List.filter_congr fun r hr => ?_
  obtain ⟨i, rfl⟩ := mem_opcodeRows hr
  rw [Bool.eq_iff_iff, row_selects_iff, beq_iff_eq]

/-- The operand of a word is its low byte (R41). -/
theorem operand_toNat {x : StimWord} {d : Byte} (h : decode x = .ldw d ∨ decode x = .pix d) :
    d.toNat = x.toNat % 256 := by
  have hd : d = BitVec.ofNat 8 x.toNat := by
    rw [decode_eq] at h
    split_ifs at h <;> simp_all
  rw [hd, BitVec.toNat_ofNat]

/-! ### Numbers of any size (R40, R41) -/

theorem decodeNat_of_lt {w : Nat} (h : w < 2048) : decodeNat w = .ok (decode (BitVec.ofNat 11 w)) := by
  have hrange : stimWordInRange w = true := decide_eq_true h
  rw [decodeNat, stimWordOfNat?, if_pos hrange]

theorem decodeNat_of_ge {w : Nat} (h : 2048 ≤ w) : decodeNat w = .error .notAStimulusWord := by
  have hrange : ¬ stimWordInRange w = true := by simpa [stimWordInRange] using h
  rw [decodeNat, stimWordOfNat?, if_neg hrange]

theorem operandOfNat?_toNat (d : Byte) : operandOfNat? d.toNat = some d := by
  have hrange : operandInRange d.toNat = true := decide_eq_true d.isLt
  rw [operandOfNat?, if_pos hrange, BitVec.ofNat_toNat, BitVec.setWidth_eq]

theorem operandOfNat?_of_ge {k : Nat} (h : 256 ≤ k) : operandOfNat? k = none := by
  have hrange : ¬ operandInRange k = true := by simpa [operandInRange] using h
  rw [operandOfNat?, if_neg hrange]

end Sys2Proof

/-! ### The driver operations (30_encoding.md R46 to R49) -/

namespace Sys2Proof.Machine

/-- Entry `k·r + c` of the rows one after another is the entry in row `r`, column `c` (20_memory.md R33). -/
theorem flatten_getElem? {m k : Nat} (v : Vector (Vector Byte k) m) (r : Fin m) (c : Fin k) :
    v.flatten.toList[k * r.val + c.val]? = some (v[r.val])[c.val] := by
  have hlt : k * r.val + c.val < m * k := by
    calc k * r.val + c.val < k * (r.val + 1) := by rw [Nat.mul_succ]; omega
      _ ≤ k * m := Nat.mul_le_mul_left _ r.isLt
      _ = m * k := Nat.mul_comm _ _
  have hdiv : (k * r.val + c.val) / k = r.val := by
    rw [Nat.mul_add_div (by omega), Nat.div_eq_of_lt c.isLt, Nat.add_zero]
  have hmod : (k * r.val + c.val) % k = c.val := by
    rw [Nat.mul_add_mod, Nat.mod_eq_of_lt c.isLt]
  rw [Vector.getElem?_toList, Vector.getElem?_eq_getElem hlt, Vector.getElem_flatten]
  simp only [hdiv, hmod]

theorem loadWeightsWords_length (m : Kernel) : (loadWeightsWords m).length = 9 := by simp [loadWeightsWords]

theorem streamImageWords_length (img : Image) : (streamImageWords img).length = 256 := by simp [streamImageWords]

theorem fullRunWords_length (m : Kernel) (img : Image) : (fullRunWords m img).length = 266 := by
  simp [fullRunWords, resetWords, loadWeightsWords_length, streamImageWords_length]

theorem loadWeightsWords_getElem? (m : Kernel) (r c : Fin 3) :
    (loadWeightsWords m)[3 * r.val + c.val]? = some (encode (.ldw (m[r.val])[c.val])) := by
  rw [loadWeightsWords, Kernel.rowMajor_eq_flatten, List.getElem?_map, flatten_getElem? m r c, Option.map_some]

theorem streamImageWords_getElem? (img : Image) (i j : Fin 16) :
    (streamImageWords img)[16 * i.val + j.val]? = some (encode (.pix (img[i.val])[j.val])) := by
  rw [streamImageWords, Image.rowMajor_eq_flatten, List.getElem?_map, flatten_getElem? img i j, Option.map_some]

/-! ### The assembler (30_encoding.md R45) -/

/-- A line assembles exactly where its operation can be written, to copies of its canonical word (R43). -/
theorem Line.assemble_ok {l : Line} {ws : List StimWord} :
    l.assemble = .ok ws ↔ ∃ i, l.op.instr = .ok i ∧ ws = List.replicate l.times (encode i) := by
  unfold Line.assemble
  cases l.op.instr <;> simp [eq_comm]

theorem WrittenOp.instr_ldw (d : Byte) : (WrittenOp.ldw d.toNat).instr = .ok (.ldw d) := by
  rw [WrittenOp.instr, operandOfNat?_toNat]

theorem WrittenOp.instr_pix (d : Byte) : (WrittenOp.pix d.toNat).instr = .ok (.pix d) := by
  rw [WrittenOp.instr, operandOfNat?_toNat]

/-- An operand above 255 is rejected, whatever the repetition. -/
theorem Line.assemble_of_ge {k : Nat} (h : 256 ≤ k) (times : Nat) :
    (Line.mk (.ldw k) times).assemble = .error .operandOutOfRange ∧
      (Line.mk (.pix k) times).assemble = .error .operandOutOfRange := by
  simp only [Line.assemble, WrittenOp.instr, operandOfNat?_of_ge h, and_self]

/-- A program assembles line by line. -/
theorem assemble_cons_ok {l : Line} {ls : List Line} {ws : List StimWord} :
    assemble (l :: ls) = .ok ws ↔ ∃ wl rest, l.assemble = .ok wl ∧ assemble ls = .ok rest ∧ ws = wl ++ rest := by
  rw [assemble]
  cases l.assemble <;> cases assemble ls <;> simp [eq_comm]

theorem assemble_singleton (l : Line) : assemble [l] = l.assemble := by
  rw [assemble, assemble]
  cases l.assemble <;> simp

theorem assemble_append {ls ls' : List Line} {ws ws' : List StimWord} (h : assemble ls = .ok ws)
    (h' : assemble ls' = .ok ws') : assemble (ls ++ ls') = .ok (ws ++ ws') := by
  induction ls generalizing ws with
  | nil =>
    obtain rfl : [] = ws := Except.ok.inj h
    exact h'
  | cons l ls ih =>
    obtain ⟨wl, rest, hl, hrest, rfl⟩ := assemble_cons_ok.1 h
    rw [List.append_assoc]
    exact assemble_cons_ok.2 ⟨wl, rest ++ ws', hl, ih hrest, rfl⟩

/-- A program assembles only if each of its lines does. -/
theorem assemble_lines {ls : List Line} {ws : List StimWord} (h : assemble ls = .ok ws) :
    ∀ l ∈ ls, ∃ wl, l.assemble = .ok wl := by
  induction ls generalizing ws with
  | nil => simp
  | cons l ls ih =>
    obtain ⟨wl, rest, hl, hrest, -⟩ := assemble_cons_ok.1 h
    exact List.forall_mem_cons.2 ⟨⟨wl, hl⟩, ih hrest⟩

end Sys2Proof.Machine

/-! ### The statements -/

namespace Sys2Proof.Proofs

open Sys2Proof.Machine Sys2Proof.Safety

/-- Settles O42: both halves pin by pin. -/
theorem decodeAndEncodeAgree : Obligations.DecodeAndEncodeAgree :=
  ⟨fun i _ => decode_encode i, decode_eq_iff⟩

/-- Settles O38: the words in the order of the flattened matrix. -/
theorem driverOperationsExpandRowMajor : Obligations.DriverOperationsExpandRowMajor :=
  ⟨rfl, fun m => ⟨loadWeightsWords_length m, loadWeightsWords_getElem? m⟩,
    fun img => ⟨streamImageWords_length img, streamImageWords_getElem? img⟩, fullRunWords_length⟩

/-- Settles O40: the two round trips and the number of a packed word. -/
theorem stimulusWordPacksThePins : Obligations.StimulusWordPacksThePins :=
  ⟨fun p => ⟨p.ofWord_toWord, p.toWord_toNat⟩, Inputs.toWord_ofWord⟩

/-- Settles O41: the rows that select a word, and its operand. -/
theorem decodeFollowsTheOpcodeTable : Obligations.DecodeFollowsTheOpcodeTable :=
  fun x => ⟨opcodeRows_filter_selects x, fun _ => operand_toNat⟩

/-- Settles O45: a line by its operation, a program line by line. -/
theorem assemblerWritesCanonicalWords : Obligations.AssemblerWritesCanonicalWords := by
  refine ⟨fun l ws h => ?_, fun times => ⟨rfl, rfl, fun d => ⟨?_, ?_⟩⟩, fun k times hk => Line.assemble_of_ge hk times,
    rfl, assemble_singleton, fun ls ls' ws ws' => assemble_append, fun ls ws => assemble_lines⟩
  · obtain ⟨i, hi, hws⟩ := Line.assemble_ok.1 h
    exact ⟨i, hi, hws, decode_encode i⟩
  · exact Line.assemble_ok.2 ⟨_, WrittenOp.instr_ldw d, rfl⟩
  · exact Line.assemble_ok.2 ⟨_, WrittenOp.instr_pix d, rfl⟩

/-- Settles O43: each word has the canonical word's bits where its operation uses them. -/
theorem exampleWordsDecode : Obligations.ExampleWordsDecode := by
  simp only [Obligations.ExampleWordsDecode, decode_eq_iff]
  decide

/-- Settles O44: the numbers of 11 bits and the others. -/
theorem onlyElevenBitNumbersDecode : Obligations.OnlyElevenBitNumbersDecode :=
  fun _ => ⟨decodeNat_of_lt, decodeNat_of_ge⟩

end Sys2Proof.Proofs

/-! PROOFS of the statements about the window, the datapath and the whole run (20_memory.md, 42_stream_convolve.md,
30_encoding.md R49). -/

/-! ### The window slots (20_memory.md R32) -/

namespace Sys2Proof.Machine

/-- The integer formula of R32. -/
theorem windowSlot_val (a : Slot) (i j : Fin Config.K) : ((windowSlot a i j).val : Int) =
    ((a.val : Int) - (2 - (i.val : Int)) * 16 - (2 - (j.val : Int))) % 35 := by
  have hi : i.val < 3 := i.isLt
  have hj : j.val < 3 := j.isLt
  have hoffset : (((2 - i.val) * 16 + (2 - j.val) : Nat) : Int) = (2 - (i.val : Int)) * 16 + (2 - (j.val : Int)) := by
    omega
  rw [windowSlot, Slot.back_val, hoffset, Int.sub_sub]

/-- Fewer than `C` places back, different offsets give different slots. -/
theorem Slot.back_inj {a : Slot} {k k' : Nat} (hk : k < 35) (hk' : k' < 35) (h : Slot.back a k = Slot.back a k') :
    k = k' := by
  have hback := Slot.back_val a k
  rw [h, Slot.back_val] at hback
  omega

/-- The nine slots are different (R32). -/
theorem windowSlot_inj {a : Slot} {i j i' j' : Fin Config.K} (h : windowSlot a i j = windowSlot a i' j') :
    i = i' ∧ j = j' := by
  have hi : i.val < 3 := i.isLt
  have hj : j.val < 3 := j.isLt
  have hi' : i'.val < 3 := i'.isLt
  have hj' : j'.val < 3 := j'.isLt
  have hoffset : (2 - i.val) * 16 + (2 - j.val) = (2 - i'.val) * 16 + (2 - j'.val) :=
    Slot.back_inj (a := a) (by omega) (by omega) h
  exact ⟨Fin.ext (by omega), Fin.ext (by omega)⟩

/-- The top-left element stands in the slot the next pixel overwrites. -/
theorem windowSlot_first (a : Slot) : windowSlot a 0 0 = Slot.next a := by
  have hback : ((windowSlot a 0 0).val : Int) = ((a.val : Int) - (34 : Nat)) % 35 := Slot.back_val a 34
  have hnext := Slot.next_val a
  exact Fin.ext (by omega)

/-- The bottom-right element is the pixel just written. -/
theorem windowSlot_last (a : Slot) : windowSlot a 2 2 = a := by
  have hback : ((windowSlot a 2 2).val : Int) = ((a.val : Int) - (0 : Nat)) % 35 := Slot.back_val a 0
  have ha : a.val < 35 := a.isLt
  exact Fin.ext (by omega)

/-! ### The accumulator (42_stream_convolve.md R60, R61) -/

theorem sum3_eq_sum (f : Fin Config.K → Nat) : sum3 f = ∑ i : Fin 3, f i := (Fin.sum_univ_three f).symm

theorem window_eq_readAt (lb : Memory) (a : Slot) (i j : Fin Config.K) : window lb a i j =
    Memory.readAt lb (((a.val : Int) - (2 - (i.val : Int)) * 16 - (2 - (j.val : Int))) % 35).toNat := by
  rw [window, Memory.read, ← windowSlot_val, Int.toNat_natCast]

/-- The accumulator as a double sum over the slots' integer formula. -/
theorem acc_eq_sum (lb : Memory) (w : Weights) (a : Slot) : acc lb w a = ∑ i : Fin 3, ∑ j : Fin 3,
    (Memory.readAt lb (((a.val : Int) - (2 - (i.val : Int)) * 16 - (2 - (j.val : Int))) % 35).toNat).toNat
      * (readWeight w (weightIndex i j)).toNat := by
  simp only [acc, sum3_eq_sum, window_eq_readAt]

/-- A product of two bytes is at most `255 · 255` (R61). -/
theorem byte_mul_le (x y : Byte) : x.toNat * y.toNat ≤ 65025 :=
  Nat.mul_le_mul (Nat.le_of_lt_succ x.isLt) (Nat.le_of_lt_succ y.isLt)

theorem sum3_le {f : Fin Config.K → Nat} {b : Nat} (h : ∀ i, f i ≤ b) : sum3 f ≤ 3 * b := by
  have h0 := h 0
  have h1 := h 1
  have h2 := h 2
  unfold sum3
  omega

/-- Nine products at their greatest (R61). -/
theorem acc_le (lb : Memory) (w : Weights) (a : Slot) : acc lb w a ≤ 585225 :=
  sum3_le (b := 3 * 65025) fun _ => sum3_le fun _ => byte_mul_le _ _

/-! ### The narrowing (00_scope.md R10) -/

theorem wrapPolicy_toNat (sum : Nat) : (wrapPolicy sum).toNat = sum % 256 := by
  rw [wrapPolicy, BitVec.toNat_ofNat, Nat.mod_mod]

theorem satPolicy_toNat (sum : Nat) : (satPolicy sum).toNat = min sum 255 := by
  rw [satPolicy, BitVec.toNat_ofNat, Nat.mod_eq_of_lt (by omega)]

/-- The narrowing keeps a sum of 255 or less, whatever the free value above is. -/
theorem narrow8_admissible : Safety.admissible narrow8 := by
  intro sum hsum
  rw [narrow8, if_pos hsum, BitVec.toNat_ofNat, Nat.mod_eq_of_lt (by omega)]

theorem wrapPolicy_admissible : Safety.admissible wrapPolicy := by
  intro sum hsum
  rw [wrapPolicy_toNat, Nat.mod_eq_of_lt (by omega)]

theorem satPolicy_admissible : Safety.admissible satPolicy := by
  intro sum hsum
  rw [satPolicy_toNat, Nat.min_eq_left hsum]

/-! ### The cycles of a run (60_exceptions.md R78) -/

/-- Every word takes one cycle, a violation's too. -/
theorem Run.cycle_cycle (r : Run) (x : StimWord) : (r.cycle x).state.cycle = r.state.cycle + 1 := by
  cases h : exec (decode x) (r.state.present x) with
  | next t =>
    rw [Run.cycle_next h]
    exact congrArg (· + 1) (Safety.exec_sameHarness h).2
  | fault f =>
    rw [Run.cycle_fault h]
    rfl
  | refused e => exact absurd h (exec_ne_refused _ _ _)

theorem Run.drive_cycle (r : Run) (ws : List StimWord) : (r.drive ws).state.cycle = r.state.cycle + ws.length := by
  induction ws generalizing r with
  | nil => rfl
  | cons x ws ih =>
    rw [Run.drive_cons, ih, Run.cycle_cycle, List.length_cons]
    omega

/-- The words of the full run are the three driver operations in turn (30_encoding.md R49). -/
theorem Run.drive_fullRunWords (r : Run) (m : Kernel) (img : Image) : r.drive (fullRunWords m img) =
    (r.reset.loadWeights m).1.drive (streamImageWords img) := by
  rw [fullRunWords, Run.drive_append, Run.drive_append]
  rfl

end Sys2Proof.Machine

namespace Sys2Proof.Safety

open Sys2Proof.Machine

/-! ### The contents of the line buffer through the other operations (20_memory.md R37) -/

theorem HoldsPixels.after_ldw {s t : State} {px : List Byte} {d : Byte} (hs : HoldsPixels s px)
    (h : execLdw d s = .next t) : HoldsPixels t px := by
  obtain ⟨-, -, rfl⟩ := execLdw_next.1 h
  exact hs.of_same_engine rfl rfl rfl rfl

theorem HoldsPixels.after_nop {s t : State} {px : List Byte} (hs : HoldsPixels s px) (h : execNop s = .next t) :
    HoldsPixels t px := by
  rw [execNop_defined hs.defined] at h
  cases h
  exact hs.of_same_engine rfl rfl rfl rfl

/-- What the pins show after a pixel that completes a window: the narrowed sum over the pixels held. -/
theorem HoldsPixels.pixelOut_after_pix {s t : State} {px : List Byte} {d : Byte} (hs : HoldsPixels s px)
    (h : execPix d s = .next t) (hwin : completesWindow px.length = true) :
    t.outputValid = true ∧ t.pixelOut = narrow8 (windowSum s.w (px ++ [d]) px.length) := by
  have hsample := hs.sample_after_pix h
  rw [if_pos hwin, State.sample_toList] at hsample
  split_ifs at hsample with hshown
  exact ⟨hshown.2, List.singleton_inj.1 hsample⟩

/-! ### The window of an image (43_output_controller.md R67) -/

/-- With the matrix in the registers, the window whose last pixel is `(y + 2, x + 2)` is output sample `(y, x)`. -/
theorem windowSum_eq_convolveAt {w : Weights} {m : Kernel} (img : Image)
    (hw : ∀ i j : Fin Config.K, readWeight w (weightIndex i j) = (m[i.val])[j.val]) (y : Fin Config.OH)
    (x : Fin Config.OW) :
    windowSum w (Image.rowMajor img) ((y.val + 2) * 16 + (x.val + 2)) = convolveAt m img y x := by
  refine congrArg sum3 (funext fun i => congrArg sum3 (funext fun j => ?_))
  have hi : i.val < 3 := i.isLt
  have hj : j.val < 3 := j.isLt
  have hy : y.val < 14 := y.isLt
  have hx : x.val < 14 := x.isLt
  have hindex : (y.val + 2) * 16 + (x.val + 2) - ((2 - i.val) * 16 + (2 - j.val)) =
      (y.val + i.val) * 16 + (x.val + j.val) := by omega
  rw [hw, hindex]
  exact congrArg (· * _) (pixelAt_rowMajor img ⟨y.val + i.val, by omega⟩ ⟨x.val + j.val, by omega⟩)

/-- A stream has as many results as the running count says (R68). -/
theorem windowResults_length (w : Weights) (px : List Byte) :
    (windowResults w px).length = resultsAfter px.length := by
  rw [windowResults, List.length_map, length_filter_completesWindow]

/-- From any run whatever, the full documented run is a stream of the image through the matrix. -/
theorem streamed_fullRun (r : Run) (m : Kernel) (img : Image) :
    Streamed (r.reset.loadWeights m).1 (r.reset.loadWeights m).1.state.w (Image.rowMajor img)
      (r.drive (fullRunWords m img)) := by
  rw [Run.drive_fullRunWords]
  exact ((loaded_loadWeights r m).streamed (Kernel.rowMajor_length m)).drive_pix (Image.rowMajor img)
    (Image.rowMajor_length img).le

/-- `reset()` and `loadWeights(m)` put entry `(i, j)` of the matrix in its register. -/
theorem Loaded.readWeight_eq {r₀ r : Run} {m : Kernel} (h : Loaded r₀ (Kernel.rowMajor m) r) (i j : Fin Config.K) :
    readWeight r.state.w (weightIndex i j) = (m[i.val])[j.val] := by
  rw [h.weights (weightIndex i j) ((weightIndex i j).isLt.trans_eq (Kernel.rowMajor_length m).symm),
    rowMajor_weightIndex]

/-- A whole frame leaves the engine in the phase after the last pixel. -/
theorem Streamed.phase {r₀ r : Run} {w : Weights} {px : List Byte} (h : Streamed r₀ w px r) (hlen : px.length = 256) :
    r.state.phase = .frameDone := by
  have hn : r.state.n.val = 256 := h.holds.count.trans hlen
  rw [State.phase_eq, if_neg (by simp [h.holds.defined]), if_neg (by rw [h.loaded]; omega), if_neg (by omega)]

/-- A whole frame without a violation is a complete run (70_reset_and_hazards.md R96). -/
theorem Streamed.complete {r₀ r : Run} {w : Weights} {px : List Byte} (h : Streamed r₀ w px r)
    (hlen : px.length = 256) (hfaults : r.faults = []) : r.complete = true := by
  have hn : r.state.n.val = 256 := h.holds.count.trans hlen
  simp [Run.complete, h.holds.defined, h.loaded, hn, hfaults, weights_eq, frame_eq]

end Sys2Proof.Safety

/-! ### The statements -/

namespace Sys2Proof.Proofs

open Sys2Proof.Machine Sys2Proof.Safety

/-- Settles O12: the state the pixel's arm answers, field by field. -/
theorem pixAcceptsThePixel : Obligations.PixAcceptsThePixel := by
  intro s d hu hw hn hwf
  have h : execPix d s = .next (pixelOutputs s (s.acceptPixel d)) := execPix_next.2 ⟨hu, hw, hn, rfl⟩
  obtain ⟨hwptr, hcount⟩ := execPix_advances h
  refine ⟨_, h, by simpa using hu, by simp, by simp, hcount, ?_, ?_, execPix_read hwf h, fun hpos => ?_, fun hpos => ?_,
    exec_sameHarness (i := .pix d) h⟩
  · rw [hwptr, Slot.next_val]
  · rw [execPix_lb h]
    exact Memory.write_wf _ _ hwf
  · have hwin : completesWindow s.n.val = true := (completesWindow_iff _).2 hpos
    rw [pixelOutputs_outputValid, pixelOutputs_pixelOut _ hwin]
    exact ⟨hwin, by simp⟩
  · rw [pixelOutputs_outputValid]
    exact Bool.eq_false_iff.2 (mt (completesWindow_iff _).1 hpos)

/-- Settles O15: the offset of each element, below `C`, and the two corners. -/
theorem windowSlotsAreTheNineOffsets : Obligations.WindowSlotsAreTheNineOffsets :=
  fun a => ⟨windowSlot_val a, fun _ _ _ _ => windowSlot_inj, windowSlot_first a, windowSlot_last a⟩

/-- Settles O16. -/
theorem accumulatorSumsTheNineProducts : Obligations.AccumulatorSumsTheNineProducts := acc_eq_sum

/-- Settles O17: the sum, its bounds, and the policies on both sides of 255. -/
theorem arithmeticIsExactUntilNarrowing : Obligations.ArithmeticIsExactUntilNarrowing := by
  intro lb w a
  have hle := acc_le lb w a
  refine ⟨acc_eq_sum lb w a, fun i j => byte_mul_le _ _, hle, by omega, narrow8_admissible _,
    fun hsmall f hf => hf _ hsmall, fun hbig => ⟨wrapPolicy_toNat _, ?_⟩⟩
  rw [satPolicy_toNat, Nat.min_eq_right (by omega)]

/-- Settles O18. -/
theorem narrowingIsAdmissible : Obligations.NarrowingIsAdmissible :=
  ⟨narrow8_admissible, wrapPolicy_admissible, satPolicy_admissible,
    fun sum => ⟨wrapPolicy_toNat sum, satPolicy_toNat sum⟩⟩

/-- Settles O19: the contents law operation by operation. -/
theorem lineBufferHoldsTheRecentPixels : Obligations.LineBufferHoldsTheRecentPixels :=
  ⟨fun s _ h => execRst_next.1 h ▸ holdsPixels_clear s, fun _ _ _ _ hs h => hs.after_pix h,
    fun _ _ _ _ hs h => hs.after_ldw h, fun _ _ _ hs h => hs.after_nop h⟩

/-- Settles O20: the pixel is accepted, and the pins show the sum over the pixels held. -/
theorem pixEmitsTheConvolutionOfTheHeldPixels : Obligations.PixEmitsTheConvolutionOfTheHeldPixels := by
  intro s px d hs hw hlen hr hc
  have h : execPix d s = .next (pixelOutputs s (s.acceptPixel d)) :=
    execPix_next.2 ⟨hs.defined, hw, hs.count ▸ hlen, rfl⟩
  exact ⟨_, h, hs.pixelOut_after_pix h ((completesWindow_iff _).2 ⟨hr, hc⟩)⟩

/-- Settles O27: the run is a stream of the whole image through the matrix, and the cell of its grid at `(y, x)` is the
window whose last pixel is `(y + 2, x + 2)`. -/
theorem fullRunComputesTheConvolution : Obligations.FullRunComputesTheConvolution := by
  intro r m img
  have hload := loaded_loadWeights r m
  have hend := streamed_fullRun r m img
  have hlen : (Image.rowMajor img).length = 256 := Image.rowMajor_length img
  have hsamples := hend.samples
  have hfaults : (r.drive (fullRunWords m img)).faults = r.faults := hend.faults.trans hload.faults
  rw [hload.samples] at hsamples
  refine ⟨fullRunWords_length m img, hfaults, ?_, ?_, fun y x => ?_, hend.holds.defined, hend.phase hlen, ?_, ?_,
    fun hnone => hend.complete hlen (hfaults.trans hnone)⟩
  · rw [hsamples, List.take_left]
  · rw [hsamples, List.length_append, windowResults_length, hlen]
    rfl
  · have hcell := (hload.streamed (Kernel.rowMajor_length m)).streamImage_cell img y.isLt x.isLt
    rw [windowSum_eq_convolveAt img hload.readWeight_eq] at hcell
    rw [Run.drive_fullRunWords, ← hload.samples]
    exact hcell
  · rw [hend.holds.cursor, hlen, capacity_eq]
  · rw [Run.drive_cycle, fullRunWords_length]

end Sys2Proof.Proofs
